-- ==== Sys2Proof/Word.lean ====
section
/-! DEFINITION. The word types of the unit (`10_state.md`, `30_encoding.md`): the byte of the buffer, the command word
and the result port. Everything the unit computes in between is an exact `Nat` or `Int`. -/

namespace Sys2Proof

/-- One byte of the buffer or of an output list (R17, R23). -/
abbrev Byte := BitVec 8

/-- One command on the `CMD` port (R48). -/
abbrev CmdWord := BitVec 32

/-- The 64-bit `RES` of a response (R23). -/
abbrev ResWord := BitVec 64

end Sys2Proof
end

