-- ==== Sys2Proof/Config.lean ====
section
/-! DEFINITION. What the spec leaves to the implementation (R9), and the free values its draws take
(`93_implementation_defined.md` U1, U3, U4, U5). None has a body, so no proof can rest on a value of one. -/

namespace Sys2Proof

/-- By how much `AW` exceeds five bits (R9, decision D11; log entry 7). -/
opaque Config.addrWidthBeyond : Nat

/-- `AW`, the width in bits of a buffer index (R9, decision D11). The spec's own program P1 binds a buffer of 16 bytes
and `CAP <= 2^AW - 1`, so it is at least 5 (log entry 7). -/
def Config.addrWidth : Nat := 5 + Config.addrWidthBeyond

/-- `CHARMAP`, the host's map from a text byte to a character (R9, R97, decision D18; log entry 8). The unit never
consults it. -/
opaque Config.charMap : Byte → Char

/-- Free values behind the cursor draws of R81 and R105, one for each value of the draw counter (log entry 5). -/
opaque Config.freeCursor : Nat → Nat

/-- The unspecified `RES` of a failing response (R23, U5; log entry 6). -/
opaque Config.freeRes : Nat → ResWord

/-- The unspecified `OUT` of a failing response (R23, U5; log entry 6). -/
opaque Config.freeOut : Nat → List Byte

end Sys2Proof
end

