-- ==== Sys2Proof/Fields.lean ====
section
/-! DEFINITION. The three selectors of a command (R50, R51, R52, R74) as closed enumerations plus an unrecognised case
that keeps the raw code, the reading C8 of `90_conflicts.md` allows (log entry 12). -/

namespace Sys2Proof

/-- DataType (R50, R74): byte width only. -/
inductive DataType where
  | byte | short | medium | int | long
  deriving DecidableEq, Repr

/-- DataOrder (R51, R74): physical byte arrangement. -/
inductive DataOrder where
  | big | little | middle | inversedMiddle
  deriving DecidableEq, Repr

/-- DataTransformation (R52, R74). -/
inductive DataTransformation where
  | none | add | subtract | negate
  deriving DecidableEq, Repr

/-- The `TYPE` field: a DataType, or a code that is none (R50). -/
inductive TypeField where
  | known (t : DataType)
  | unrecognised (code : BitVec 4)
  deriving DecidableEq, Repr

/-- The `ORD` field: a DataOrder, or an unrecognised order (R51). -/
inductive OrdField where
  | known (o : DataOrder)
  | unrecognised (code : BitVec 3)
  deriving DecidableEq, Repr

/-- The `XF` field: a DataTransformation, or an unrecognised transformation (R52). -/
inductive XfField where
  | known (x : DataTransformation)
  | unrecognised (code : BitVec 3)
  deriving DecidableEq, Repr

end Sys2Proof
end

