-- ==== Sys2Proof/Syntax.lean ====
section
/-! DEFINITION. The thirteen commands of R55, one constructor for each row of `opcode_table.json`. -/

namespace Sys2Proof

/-- A command with its operands (R49, R53, R60). `GETBIT` and the spellings with omitted operands are pseudo-commands
(R61) and stand in `Decode.lean`. -/
inductive Instr where
  /-- `SWBIT` (R64). -/
  | swbit
  /-- `SWBYTE` (R65). -/
  | swbyte
  /-- `GETBITS amount` (R67). -/
  | getbits (amount : BitVec 16)
  /-- `GETU type, order, xf` (R82). -/
  | getu (type : TypeField) (order : OrdField) (xf : XfField)
  /-- `GETS type, order, xf` (R83). -/
  | gets (type : TypeField) (order : OrdField) (xf : XfField)
  /-- `GETSMART` (R88). -/
  | getsmart
  /-- `GETBYTES n` (R92). -/
  | getbytes (n : BitVec 16)
  /-- `GETBYTESR n` (R93). -/
  | getbytesr (n : BitVec 16)
  /-- `GETBYTESX xf, n` (R94). -/
  | getbytesx (xf : XfField) (n : BitVec 16)
  /-- `GETBYTESRX xf, n` (R95). -/
  | getbytesrx (xf : XfField) (n : BitVec 16)
  /-- `GETSTR` (R97). -/
  | getstr
  /-- `GETLEN` (R98). -/
  | getlen
  /-- `GETRLEN` (R99). -/
  | getrlen
  deriving DecidableEq, Repr

end Sys2Proof
end

