-- ==== Sys2Proof/WellFormed.lean ====
section
/-! DEFINITION. Which terms of `Instr` spell a command word: an unrecognised selector must hold a code that is not one
of the recognised ones (R50, R51, R52). Every other operand fits its field by its type. -/

namespace Sys2Proof

/-- A code kept as "not a DataType" is none of 1, 2, 3, 4, 8 (R50). -/
def TypeField.wf : TypeField → Bool
  | .known _ => true
  | .unrecognised c => c != 1 && c != 2 && c != 3 && c != 4 && c != 8

/-- A code kept as an unrecognised order is 4..7 (R51). -/
def OrdField.wf : OrdField → Bool
  | .known _ => true
  | .unrecognised c => decide (4 ≤ c.toNat)

/-- A code kept as an unrecognised transformation is 4..7 (R52). -/
def XfField.wf : XfField → Bool
  | .known _ => true
  | .unrecognised c => decide (4 ≤ c.toNat)

/-- The command's selectors are well formed. -/
def Instr.wf : Instr → Bool
  | .swbit => true
  | .swbyte => true
  | .getbits _ => true
  | .getu t o x => t.wf && o.wf && x.wf
  | .gets t o x => t.wf && o.wf && x.wf
  | .getsmart => true
  | .getbytes _ => true
  | .getbytesr _ => true
  | .getbytesx x _ => x.wf
  | .getbytesrx x _ => x.wf
  | .getstr => true
  | .getlen => true
  | .getrlen => true

end Sys2Proof
end

