-- ==== Sys2Proof/Decode.lean ====
section
/-! DEFINITION. The command word (`30_encoding.md`): its fields, the decoder (R58), total and refusing by name (R56),
the encoder (R55), the pseudo-commands (R61) and the textual form (R60). The word is a value on a port and has no byte
order (R48, decision D26). -/

namespace Sys2Proof

/-- A command word taken apart, field by field (R48). -/
structure WordFields where
  op  : BitVec 4
  ty  : BitVec 4
  ord : BitVec 3
  xf  : BitVec 3
  rsv : BitVec 2
  imm : BitVec 16
  deriving DecidableEq, Repr

/-- The slices of R48: `OP[31:28] TYPE[27:24] ORD[23:21] XF[20:18] RSV[17:16] IMM[15:0]`. -/
def splitWord (w : CmdWord) : WordFields :=
  { op := w.extractLsb' 28 4, ty := w.extractLsb' 24 4, ord := w.extractLsb' 21 3,
    xf := w.extractLsb' 18 3, rsv := w.extractLsb' 16 2, imm := w.extractLsb' 0 16 }

/-- `OP << 28 | TYPE << 24 | ORD << 21 | XF << 18 | IMM` (R55), with `RSV << 16` for a word that is no command's. -/
def joinWord (f : WordFields) : CmdWord :=
  (f.op.setWidth 32 <<< 28) ||| (f.ty.setWidth 32 <<< 24) ||| (f.ord.setWidth 32 <<< 21) |||
    (f.xf.setWidth 32 <<< 18) ||| (f.rsv.setWidth 32 <<< 16) ||| f.imm.setWidth 32

/-- The operation an `OP` code selects (R49). -/
inductive Op where
  | swbit | swbyte | getbits | getu | gets | getsmart | getbytes | getbytesr | getbytesx | getbytesrx
  | getstr | getlen | getrlen
  deriving DecidableEq, Repr

/-- The `OP` code of an operation (R49). -/
def Op.code : Op → BitVec 4
  | .swbit => 0x1
  | .swbyte => 0x2
  | .getbits => 0x3
  | .getu => 0x4
  | .gets => 0x5
  | .getsmart => 0x6
  | .getbytes => 0x7
  | .getbytesr => 0x8
  | .getbytesx => 0x9
  | .getbytesrx => 0xA
  | .getstr => 0xB
  | .getlen => 0xC
  | .getrlen => 0xD

/-- The operation of an `OP` code; none for the reserved 0x0, 0xE, 0xF (R49). -/
def Op.ofCode (c : BitVec 4) : Option Op :=
  match c.toNat with
  | 0x1 => some .swbit
  | 0x2 => some .swbyte
  | 0x3 => some .getbits
  | 0x4 => some .getu
  | 0x5 => some .gets
  | 0x6 => some .getsmart
  | 0x7 => some .getbytes
  | 0x8 => some .getbytesr
  | 0x9 => some .getbytesx
  | 0xA => some .getbytesrx
  | 0xB => some .getstr
  | 0xC => some .getlen
  | 0xD => some .getrlen
  | _ => none

/-- Whether an operation uses `TYPE` and `ORD` (R54). -/
def Op.usesTypeOrd : Op → Bool
  | .getu | .gets => true
  | .swbit | .swbyte | .getbits | .getsmart | .getbytes | .getbytesr | .getbytesx | .getbytesrx
  | .getstr | .getlen | .getrlen => false

/-- Whether an operation uses `XF` (R54). -/
def Op.usesXf : Op → Bool
  | .getu | .gets | .getbytesx | .getbytesrx => true
  | .swbit | .swbyte | .getbits | .getsmart | .getbytes | .getbytesr | .getstr | .getlen | .getrlen => false

/-- Whether an operation uses `IMM` (R54). -/
def Op.usesImm : Op → Bool
  | .getbits | .getbytes | .getbytesr | .getbytesx | .getbytesrx => true
  | .swbit | .swbyte | .getu | .gets | .getsmart | .getstr | .getlen | .getrlen => false

/-- The code of a DataType is its byte width (R50). -/
def DataType.code : DataType → BitVec 4
  | .byte => 1
  | .short => 2
  | .medium => 3
  | .int => 4
  | .long => 8

/-- The code of a DataOrder (R51). -/
def DataOrder.code : DataOrder → BitVec 3
  | .big => 0
  | .little => 1
  | .middle => 2
  | .inversedMiddle => 3

/-- The code of a DataTransformation (R52). -/
def DataTransformation.code : DataTransformation → BitVec 3
  | .none => 0
  | .add => 1
  | .subtract => 2
  | .negate => 3

/-- The bits of a `TYPE` field. -/
def TypeField.code : TypeField → BitVec 4
  | .known t => t.code
  | .unrecognised c => c

/-- The bits of an `ORD` field. -/
def OrdField.code : OrdField → BitVec 3
  | .known o => o.code
  | .unrecognised c => c

/-- The bits of an `XF` field. -/
def XfField.code : XfField → BitVec 3
  | .known x => x.code
  | .unrecognised c => c

/-- Reading a `TYPE` field (R50). -/
def TypeField.ofCode (c : BitVec 4) : TypeField :=
  match c.toNat with
  | 1 => .known .byte
  | 2 => .known .short
  | 3 => .known .medium
  | 4 => .known .int
  | 8 => .known .long
  | _ => .unrecognised c

/-- Reading an `ORD` field (R51). -/
def OrdField.ofCode (c : BitVec 3) : OrdField :=
  match c.toNat with
  | 0 => .known .big
  | 1 => .known .little
  | 2 => .known .middle
  | 3 => .known .inversedMiddle
  | _ => .unrecognised c

/-- Reading an `XF` field (R52). -/
def XfField.ofCode (c : BitVec 3) : XfField :=
  match c.toNat with
  | 0 => .known .none
  | 1 => .known .add
  | 2 => .known .subtract
  | 3 => .known .negate
  | _ => .unrecognised c

/-- Why a word is an illegal encoding (R56). The response does not tell the causes apart (R101); the names are the
model's (log entry 13). -/
inductive Illegal where
  /-- `OP` is 0x0, 0xE or 0xF. -/
  | reservedOp
  /-- `RSV` is not 0 (R54). -/
  | reservedBits
  /-- A field the command does not use is not 0 (R54). -/
  | unusedField
  deriving DecidableEq, Repr

/-- What decoding a word gives (R58). -/
inductive Decoded where
  | command (i : Instr)
  | illegal (why : Illegal)
  deriving DecidableEq, Repr

/-- R54: every field the operation does not use is 0. -/
def unusedFieldsZero (o : Op) (f : WordFields) : Bool :=
  (o.usesTypeOrd || (f.ty == 0 && f.ord == 0)) && (o.usesXf || f.xf == 0) && (o.usesImm || f.imm == 0)

/-- The command an operation makes of the word's fields (R58, R53). -/
def buildInstr (o : Op) (f : WordFields) : Instr :=
  match o with
  | .swbit => .swbit
  | .swbyte => .swbyte
  | .getbits => .getbits f.imm
  | .getu => .getu (.ofCode f.ty) (.ofCode f.ord) (.ofCode f.xf)
  | .gets => .gets (.ofCode f.ty) (.ofCode f.ord) (.ofCode f.xf)
  | .getsmart => .getsmart
  | .getbytes => .getbytes f.imm
  | .getbytesr => .getbytesr f.imm
  | .getbytesx => .getbytesx (.ofCode f.xf) f.imm
  | .getbytesrx => .getbytesrx (.ofCode f.xf) f.imm
  | .getstr => .getstr
  | .getlen => .getlen
  | .getrlen => .getrlen

/-- Decoding from the fields (R55, R56, R58). -/
def decodeFields (f : WordFields) : Decoded :=
  match Op.ofCode f.op with
  | none => .illegal .reservedOp
  | some o =>
    if f.rsv != 0 then .illegal .reservedBits
    else if unusedFieldsZero o f then .command (buildInstr o f)
    else .illegal .unusedField

/-- The decoder: every 32-bit word is one command or illegal (R58). `MODE` plays no part (R59). -/
def decode (w : CmdWord) : Decoded :=
  decodeFields (splitWord w)

/-- The fields of a command's word (R55); a field the command does not use is 0 (R54). -/
def Instr.fields : Instr → WordFields
  | .swbit => ⟨Op.swbit.code, 0, 0, 0, 0, 0⟩
  | .swbyte => ⟨Op.swbyte.code, 0, 0, 0, 0, 0⟩
  | .getbits a => ⟨Op.getbits.code, 0, 0, 0, 0, a⟩
  | .getu t o x => ⟨Op.getu.code, t.code, o.code, x.code, 0, 0⟩
  | .gets t o x => ⟨Op.gets.code, t.code, o.code, x.code, 0, 0⟩
  | .getsmart => ⟨Op.getsmart.code, 0, 0, 0, 0, 0⟩
  | .getbytes n => ⟨Op.getbytes.code, 0, 0, 0, 0, n⟩
  | .getbytesr n => ⟨Op.getbytesr.code, 0, 0, 0, 0, n⟩
  | .getbytesx x n => ⟨Op.getbytesx.code, 0, 0, x.code, 0, n⟩
  | .getbytesrx x n => ⟨Op.getbytesrx.code, 0, 0, x.code, 0, n⟩
  | .getstr => ⟨Op.getstr.code, 0, 0, 0, 0, 0⟩
  | .getlen => ⟨Op.getlen.code, 0, 0, 0, 0, 0⟩
  | .getrlen => ⟨Op.getrlen.code, 0, 0, 0, 0, 0⟩

/-- The encoder (R55 "How to build a word"). -/
def encode (i : Instr) : CmdWord :=
  joinWord i.fields

/-- One row of the opcode map: a word is the row's command when `word & mask = match` (R55). -/
structure MatchRow where
  pattern : CmdWord
  mask : CmdWord
  deriving DecidableEq, Repr

/-- The opcode map of R55, as the spec prints it. The decoder above reads fields; that the two agree is an
obligation. -/
def Op.row : Op → MatchRow
  | .swbit => ⟨0x10000000, 0xFFFFFFFF⟩
  | .swbyte => ⟨0x20000000, 0xFFFFFFFF⟩
  | .getbits => ⟨0x30000000, 0xFFFF0000⟩
  | .getu => ⟨0x40000000, 0xF003FFFF⟩
  | .gets => ⟨0x50000000, 0xF003FFFF⟩
  | .getsmart => ⟨0x60000000, 0xFFFFFFFF⟩
  | .getbytes => ⟨0x70000000, 0xFFFF0000⟩
  | .getbytesr => ⟨0x80000000, 0xFFFF0000⟩
  | .getbytesx => ⟨0x90000000, 0xFFE30000⟩
  | .getbytesrx => ⟨0xA0000000, 0xFFE30000⟩
  | .getstr => ⟨0xB0000000, 0xFFFFFFFF⟩
  | .getlen => ⟨0xC0000000, 0xFFFFFFFF⟩
  | .getrlen => ⟨0xD0000000, 0xFFFFFFFF⟩

/-- `W & row.mask == row.match` (R55). -/
def MatchRow.holds (r : MatchRow) (w : CmdWord) : Bool :=
  w &&& r.mask == r.pattern

/-- The operation of a command. -/
def Instr.op : Instr → Op
  | .swbit => .swbit
  | .swbyte => .swbyte
  | .getbits _ => .getbits
  | .getu _ _ _ => .getu
  | .gets _ _ _ => .gets
  | .getsmart => .getsmart
  | .getbytes _ => .getbytes
  | .getbytesr _ => .getbytesr
  | .getbytesx _ _ => .getbytesx
  | .getbytesrx _ _ => .getbytesrx
  | .getstr => .getstr
  | .getlen => .getlen
  | .getrlen => .getrlen

/-- Pseudo-command `GETBIT` (R61, R72). -/
def Instr.getbit : Instr := .getbits 1

/-- `GETU type, order` with the transformation omitted (R61). -/
def Instr.getuOrder (t : TypeField) (o : OrdField) : Instr := .getu t o (.known .none)

/-- `GETU type` with order and transformation omitted (R61). -/
def Instr.getuType (t : TypeField) : Instr := .getuOrder t (.known .big)

/-- `GETS type, order` with the transformation omitted (R61). -/
def Instr.getsOrder (t : TypeField) (o : OrdField) : Instr := .gets t o (.known .none)

/-- `GETS type` with order and transformation omitted (R61). -/
def Instr.getsType (t : TypeField) : Instr := .getsOrder t (.known .big)

/-- The name of a `TYPE` operand, a number for a code that is no DataType (R60). -/
def TypeField.text : TypeField → String
  | .known .byte => "BYTE"
  | .known .short => "SHORT"
  | .known .medium => "MEDIUM"
  | .known .int => "INT"
  | .known .long => "LONG"
  | .unrecognised c => toString c.toNat

/-- The name of an `ORD` operand (R60). -/
def OrdField.text : OrdField → String
  | .known .big => "BIG"
  | .known .little => "LITTLE"
  | .known .middle => "MIDDLE"
  | .known .inversedMiddle => "INVERSED_MIDDLE"
  | .unrecognised c => toString c.toNat

/-- The name of an `XF` operand (R60). -/
def XfField.text : XfField → String
  | .known .none => "NONE"
  | .known .add => "ADD"
  | .known .subtract => "SUBTRACT"
  | .known .negate => "NEGATE"
  | .unrecognised c => toString c.toNat

/-- The textual form of a command with every operand written out (R60). -/
def Instr.text : Instr → String
  | .swbit => "SWBIT"
  | .swbyte => "SWBYTE"
  | .getbits a => "GETBITS " ++ toString a.toNat
  | .getu t o x => "GETU " ++ t.text ++ ", " ++ o.text ++ ", " ++ x.text
  | .gets t o x => "GETS " ++ t.text ++ ", " ++ o.text ++ ", " ++ x.text
  | .getsmart => "GETSMART"
  | .getbytes n => "GETBYTES " ++ toString n.toNat
  | .getbytesr n => "GETBYTESR " ++ toString n.toNat
  | .getbytesx x n => "GETBYTESX " ++ x.text ++ ", " ++ toString n.toNat
  | .getbytesrx x n => "GETBYTESRX " ++ x.text ++ ", " ++ toString n.toNat
  | .getstr => "GETSTR"
  | .getlen => "GETLEN"
  | .getrlen => "GETRLEN"

/-- The host's question: the command read from an instruction whose bits are `w`, bit 0 the least significant. A
command is one 32-bit word (R48), so bits above `nbits` up to 32 are 0 and a longer instruction does not exist
(log entry 17). -/
def decodeTableWord (nbits w : Nat) : Option Instr :=
  if nbits ≤ 32 ∧ w < 2 ^ 32 then
    match decode (BitVec.ofNat 32 w) with
    | .command i => some i
    | .illegal _ => none
  else none

end Sys2Proof
end

