-- ==== Sys2Proof/Machine/State.lean ====
section
/-! DEFINITION. The state of the unit, the buffer it is bound to, and the host's side of its interfaces
(`10_state.md`, `00_scope.md` R6, `70_reset_and_hazards.md`). -/

namespace Sys2Proof.Machine

/-- `MODE`, the access mode (R11). Its 1-bit coding is `Mode.code` (`Flags.lean`). -/
inductive Mode where
  | byte | bit
  deriving DecidableEq, Repr

/-- The three ways a command can fail (R100, R101). -/
inductive ErrorKind where
  | invalidMode | invalidArgument | bufferFault
  deriving DecidableEq, Repr

/-- `STATUS` of a response (R101). Its 2-bit coding is `Status.code` (`Flags.lean`). -/
inductive Status where
  | ok
  | error (e : ErrorKind)
  deriving DecidableEq, Repr

/-- One response on `RSP` (R23): the status, the 64-bit result and the byte list. -/
structure Response where
  status : Status
  res : ResWord
  out : List Byte
  deriving DecidableEq, Repr

/-- The buffer's bytes, as the pairs that differ from what an unlisted index reads as (log entry 3). -/
abbrev Memory := List Host.Cell

/-- A buffer as the host prepares it (R118 steps 1 and 2): `MEM[0 .. CAP-1]` in order, so that its length is `CAP`,
the index of the first byte to decode, and the end of the readable data. -/
structure BufferImage where
  bytes : List Byte
  rd : Nat
  wr : Nat
  deriving DecidableEq, Repr

/-- What the host does to the unit between commands (R6, R120). -/
inductive Input where
  /-- One command word on `CMD` (R48). -/
  | cmd (w : CmdWord)
  /-- A pulse on `RST`, the buffer left as it is (R116, R117). -/
  | rst
  /-- One command word, and `RST` before its response: the command is abandoned (R117; log entry 16). -/
  | cmdRst (w : CmdWord)
  /-- A buffer is bound, then `RST` is pulsed (R117, R118; log entry 15). -/
  | bind (b : BufferImage)
  deriving DecidableEq, Repr

/-- The whole state. `mode` and `bitcur` are the unit's own (R10); `rd`, `wr`, `cap` and `mem` are the buffer (R16);
`rsp` is the response port; `inputs` is what the host will still do; `draws` numbers the free values. Cursors and
extents are natural numbers, as R9 allows. -/
structure State where
  mode : Mode
  bitcur : Nat
  rd : Nat
  wr : Nat
  cap : Nat
  mem : Memory
  rsp : Option Response
  inputs : List Input
  draws : Nat
  deriving DecidableEq, Repr

/-- Reasons the machine stops. There is none: every command ends with a response and no command hangs (R115), and
every error the spec describes is a response after which the unit goes on (R108, R109). Safe: nothing is left out
by it. -/
inductive Fault where
  deriving DecidableEq, Repr

/-- Reasons the model has no next state. -/
inductive Refusal where
  /-- Raised by an arm of `exec` for a command without a meaning. No arm raises it. Safe. -/
  | notModelled (mnemonic : String)
  /-- Raised by `bindBuffer` and `resetUnit`: the host releases reset with `RD > WR`, `WR > CAP` or a `CAP` that no
  buffer index can hold, which the spec's own table refuses (`93_implementation_defined.md` U18). Not raised by any
  command. Safe. -/
  | badBinding
  deriving DecidableEq, Repr

/-- What a step of this machine answers. -/
abbrev StepResult := Host.Outcome State Fault Refusal

/-- Right after reset, before any buffer is bound: `MODE` and `BITCUR` as R26 and R116 say, no response outstanding.
The spec gives no buffer here; the model takes the empty one (log entry 2). -/
def State.reset : State where
  mode := .byte
  bitcur := 0
  rd := 0
  wr := 0
  cap := 0
  mem := []
  rsp := none
  inputs := []
  draws := 0

end Sys2Proof.Machine
end

