-- ==== Sys2Proof/Machine/Ops.lean ====
section
/-! DEFINITION. The named operations every command is written with: the buffer's bytes, the `BUF` primitives
(`20_memory.md`), the response and the three errors (`60_exceptions.md`), reset and binding
(`70_reset_and_hazards.md`). -/

namespace Sys2Proof.Machine

/-- What an unlisted index of the buffer reads as (log entry 3). -/
def Memory.blank : Byte := 0

/-- `MEM[i]` (R17, R28). -/
def Memory.read : Memory → Nat → Byte
  | [], _ => Memory.blank
  | c :: rest, i => if c.1 = i then c.2 else Memory.read rest i

/-- The one form of a buffer's contents: indices strictly rising, no entry equal to what an unlisted index reads
as. -/
abbrev Memory.wf (m : Memory) : Prop :=
  m.Pairwise (fun c d => c.1 < d.1) ∧ ∀ c ∈ m, c.2 ≠ Memory.blank

/-- Bytes placed at consecutive indices from `base` (R118 step 1). This is the only way a buffer's contents come about:
the unit itself never writes `MEM` (R34). -/
def Memory.place (base : Nat) : List Byte → Memory
  | [] => []
  | b :: bs =>
    if b = Memory.blank then Memory.place (base + 1) bs else (base, b) :: Memory.place (base + 1) bs

/-- `MODE <- m`. -/
def State.setMode (s : State) (m : Mode) : State := { s with mode := m }

/-- `BITCUR <- c`. -/
def State.setBitcur (s : State) (c : Nat) : State := { s with bitcur := c }

/-- `RD <- r` (R31). -/
def State.setRd (s : State) (r : Nat) : State := { s with rd := r }

/-- The response port takes a new response, or none. -/
def State.setRsp (s : State) (r : Option Response) : State := { s with rsp := r }

/-- The host's further actions. -/
def State.setInputs (s : State) (l : List Input) : State := { s with inputs := l }

/-- One more free value has been taken (log entry 5). -/
def State.nextDraw (s : State) : State := { s with draws := s.draws + 1 }

/-- The host's buffer is bound: `MEM`, `RD`, `WR`, `CAP` (R117, R118). -/
def State.setBuffer (s : State) (b : BufferImage) : State :=
  { s with mem := Memory.place 0 b.bytes, rd := b.rd, wr := b.wr, cap := b.bytes.length }

/-- The buffer byte at index `i`, whatever the extents. -/
def State.byteAt (s : State) (i : Nat) : Byte := s.mem.read i

/-- `Peek(i)` (R29): the byte, or none when `i >= WR`, the only check there is (R43). -/
def State.peek (s : State) (i : Nat) : Option Byte :=
  if i < s.wr then some (s.byteAt i) else none

/-- `Consume()` (R30): `MEM[RD]`, then `RD <- RD + 1`; none, with nothing advanced, when `RD >= WR`. -/
def State.consume (s : State) : Option (Byte × State) :=
  if s.rd < s.wr then some (s.byteAt s.rd, s.setRd (s.rd + 1)) else none

/-- `n` calls of `Consume()` in sequence, ascending (R30, R40); none when one of them is refused. -/
def State.consumeN : Nat → State → Option (List Byte × State)
  | 0, s => some ([], s)
  | n + 1, s =>
    match s.consume with
    | none => none
    | some (b, s₁) =>
      match State.consumeN n s₁ with
      | none => none
      | some (bs, s₂) => some (b :: bs, s₂)

/-- `n` peeks at ascending indices from `i` (R40, `GETBITS`); none when one of them is refused. -/
def State.peekN : Nat → Nat → State → Option (List Byte)
  | 0, _, _ => some []
  | n + 1, i, s =>
    match s.peek i with
    | none => none
    | some b =>
      match State.peekN n (i + 1) s with
      | none => none
      | some bs => some (b :: bs)

/-- `Readable() = WR - RD` (R32, decision D9; log entry 18). An integer, so that a state outside the spec's invariant
does not hide a truncation (log entry 11). -/
def State.readable (s : State) : Int := (s.wr : Int) - (s.rd : Int)

/-- `Writable() = CAP - WR` (R33, decision D9; log entry 18). -/
def State.writable (s : State) : Int := (s.cap : Int) - (s.wr : Int)

/-- `respond(v)` with an output list: `STATUS = OK`, `RES = v mod 2^64` (R9, R23). -/
def respondWith (v : Int) (out : List Byte) (s : State) : StepResult :=
  .next (s.setRsp (some ⟨.ok, BitVec.ofInt 64 v, out⟩))

/-- `respond(v)` for a command without an output list, `L = 0` (R23). -/
def respond (v : Int) (s : State) : StepResult :=
  respondWith v [] s

/-- `raise E` (R108): the command ends with `STATUS = E`. `RES` and `OUT` are unspecified, so they are free values
(R23, U5; log entry 6). Nothing is saved, no mode changes and the unit is ready for the next command. This is the one
shared operation by which a command takes an error; there is no return from one (R109), only `resetUnit`. -/
def raise (e : ErrorKind) (s : State) : StepResult :=
  .next ((s.setRsp (some ⟨.error e, Config.freeRes s.draws, Config.freeOut s.draws⟩)).nextDraw)

/-- The element of `lo .. hi` that the number `k` picks; every element is picked by some `k`. In an empty range it is
`lo` (log entry 11). -/
def drawFrom (k lo hi : Nat) : Nat := lo + k % (hi - lo + 1)

/-- `draw({lo .. hi})` (R9): a free element of the range (log entry 5). -/
def State.drawIn (s : State) (lo hi : Nat) : Nat := drawFrom (Config.freeCursor s.draws) lo hi

/-- `BufferFault` in Byte mode: `RD` is any value in `RD0 .. WR` (R105). `s` is the state before the command. -/
def raiseByteFault (s : State) : StepResult :=
  raise .bufferFault (s.setRd (s.drawIn s.rd s.wr))

/-- `BufferFault` in Bit mode: `BITCUR` is any value in `BITCUR0 .. 8*WR` (R105). -/
def raiseBitFault (s : State) : StepResult :=
  raise .bufferFault (s.setBitcur (s.drawIn s.bitcur (8 * s.wr)))

/-- An unrecognised transformation met in a field of `w` bytes: `RD` is any value in `RD0 .. min(RD0 + w, WR)`
(R81, R103 causes 6 and 7). -/
def raiseMidField (w : Nat) (s : State) : StepResult :=
  raise .invalidArgument (s.setRd (s.drawIn s.rd (min (s.rd + w) s.wr)))

/-- The mode check, ahead of every other check of a command that has one (R63, R102, R107). -/
def requireMode (m : Mode) (s : State) (body : StepResult) : StepResult :=
  if s.mode = m then body else raise .invalidMode s

/-- What the unit answers to a word that is no command: `InvalidArgumentError`, no state change, in either mode
(R56). -/
def execIllegal (s : State) : StepResult :=
  raise .invalidArgument s

/-- `RST` (R116, R117, R26): `MODE <- Byte`, `BITCUR <- 0`, no response outstanding, the buffer untouched. Refused when
the buffer is not one the host may release reset with (U18). -/
def resetUnit (s : State) : StepResult :=
  if s.rd ≤ s.wr ∧ s.wr ≤ s.cap then .next (((s.setMode .byte).setBitcur 0).setRsp none)
  else .refused .badBinding

/-- Whether a command in progress moves `RD`: a consuming command in Byte mode, `SWBYTE` in Bit mode (R15). -/
def movesRd (i : Instr) (m : Mode) : Bool :=
  match i with
  | .swbyte => m == .bit
  | .getu _ _ _ | .gets _ _ _ | .getsmart | .getbytes _ | .getbytesr _ | .getbytesx _ _ | .getbytesrx _ _
  | .getstr => m == .byte
  | .swbit | .getbits _ | .getlen | .getrlen => false

/-- A command that `RST` interrupts: no response, and `RD`, if the command was moving it, is any value in `RD0 .. WR`;
then the reset, which sets `BITCUR` whatever the command left in it (R117, U7; log entry 16). -/
def abandonCommand (i : Instr) (s : State) : StepResult :=
  resetUnit (if movesRd i s.mode then (s.setRd (s.drawIn s.rd s.wr)).nextDraw else s)

/-- The host binds a buffer and pulses `RST` (R117, R118). Refused when `CAP` exceeds `2^AW - 1` (R9, R118). -/
def bindBuffer (b : BufferImage) (s : State) : StepResult :=
  if b.bytes.length < 2 ^ Config.addrWidth then resetUnit (s.setBuffer b)
  else .refused .badBinding

end Sys2Proof.Machine
end

