-- ==== Sys2Proof/Machine/Operands.lean ====
section
/-! DEFINITION. What the operands of a command mean: the legal combinations of the three selectors (R75, R85), the
transformation of one byte (R76), the byte placements (R78, R80), the bit run (R67, R71), sign extension (R9, R84). -/

namespace Sys2Proof.Machine

/-- The width in bytes of a DataType (R50). -/
def typeWidth (t : DataType) : Nat := t.code.toNat

/-- `T(xf, r)` (R76): the transformation of one byte, mod 256. -/
def transformByte (x : DataTransformation) (r : Byte) : Byte :=
  match x with
  | .none => r
  | .add => r - 128
  | .subtract => 128 - r
  | .negate => -r

/-- Whether an order is one of the two legal for `INT` and `NONE` only (R74). -/
def isMiddleOrder : DataOrder → Bool
  | .big | .little => false
  | .middle | .inversedMiddle => true

/-- What the argument checks of `ReadRaw` conclude (R78, R85). -/
inductive RawPlan where
  /-- A legal combination (R75). -/
  | legal (t : DataType) (o : DataOrder) (x : DataTransformation)
  /-- `InvalidArgumentError` with nothing consumed (causes 1 to 4 of R85). -/
  | reject
  /-- `InvalidArgumentError` met inside a field of `w` bytes (cause 5 of R85, R81). -/
  | rejectMidField (w : Nat)
  deriving DecidableEq, Repr

/-- The argument checks of `ReadRaw`, in the order of R78 and R85. -/
def rawPlan (ty : TypeField) (ord : OrdField) (xf : XfField) : RawPlan :=
  match ty with
  | .unrecognised _ => .reject
  | .known t =>
    match ord with
    | .unrecognised _ => .reject
    | .known o =>
      if isMiddleOrder o then
        if xf ≠ .known .none then .reject
        else if t ≠ .int then .reject
        else .legal t o .none
      else
        match xf with
        | .unrecognised _ => .rejectMidField (typeWidth t)
        | .known x => .legal t o x

/-- `f 0 + f 1 + ... + f (n-1)`. -/
def sumTo (f : Nat → Nat) : Nat → Nat
  | 0 => 0
  | n + 1 => sumTo f n + f n

/-- The value `ReadRaw` assembles from the stream bytes `b 0, b 1, ..` of a field of `w` bytes, the byte of the low
eight bits transformed (R78, R79). The two middle orders read four bytes and transform none. -/
def assemble (o : DataOrder) (x : DataTransformation) (w : Nat) (b : Nat → Byte) : Nat :=
  match o with
  | .big => (transformByte x (b (w - 1))).toNat + sumTo (fun k => (b k).toNat <<< (8 * (w - 1 - k))) (w - 1)
  | .little => (transformByte x (b 0)).toNat + sumTo (fun k => (b (k + 1)).toNat <<< (8 * (k + 1))) (w - 1)
  | .middle =>
    ((b 0).toNat <<< 8) ||| (b 1).toNat ||| ((b 2).toNat <<< 24) ||| ((b 3).toNat <<< 16)
  | .inversedMiddle =>
    ((b 0).toNat <<< 16) ||| ((b 1).toNat <<< 24) ||| (b 2).toNat ||| ((b 3).toNat <<< 8)

/-- `mask(k) = 2^k - 1`, the bit-mask table (R71). -/
def bitMask (k : Nat) : Nat := 2 ^ k - 1

/-- The first byte a bit run touches (R40, R67 `bytePos`). -/
def firstByte (cursor : Nat) : Nat := cursor >>> 3

/-- How many bytes the run of `amount` bits from `cursor` touches: `cursor >> 3` through
`(cursor + amount - 1) >> 3` (R40). -/
def spanBytes (cursor amount : Nat) : Nat := ((cursor + amount - 1) >>> 3) + 1 - (cursor >>> 3)

/-- The extraction loop of R67 over the bytes the run touches: `a` bits are still to be taken and `left` bits of the
first byte are unread. -/
def gatherBits (a left : Nat) : List Byte → Nat
  | [] => 0
  | b :: bs =>
    if a > left then ((b.toNat &&& bitMask left) <<< (a - left)) + gatherBits (a - left) 8 bs
    else if a = left then b.toNat &&& bitMask left
    else (b.toNat >>> (left - a)) &&& bitMask a

/-- `sext_N(v)` (R9): the `N`-bit pattern `v` as a signed integer. -/
def sext (n v : Nat) : Int :=
  if v < 2 ^ (n - 1) then (v : Int) else (v : Int) - 2 ^ n

/-- Stream bit `k`: bit `7 - (k & 7)` of `MEM[k >> 3]` (R35). -/
def State.streamBit (s : State) (k : Nat) : Nat :=
  ((s.byteAt (k >>> 3)).toNat >>> (7 - (k &&& 7))) &&& 1

end Sys2Proof.Machine
end

