-- ==== Sys2Proof/Machine/Flags.lean ====
section
/-! DEFINITION. The unit has no condition flags (R14): no command sets a carry, zero, sign or overflow flag. What it has
in their place are the numeric codes of `MODE` (R11) and `STATUS` (R101), and the host's reading of a text response
(R97). -/

namespace Sys2Proof.Machine

/-- The coding of `MODE` (R11, decision D27). -/
def Mode.code : Mode → BitVec 1
  | .byte => 0
  | .bit => 1

/-- The 2-bit coding of `STATUS` (R101, decision D7). -/
def Status.code : Status → BitVec 2
  | .ok => 0
  | .error .invalidMode => 1
  | .error .invalidArgument => 2
  | .error .bufferFault => 3

/-- The text a host reads from a `GETSTR` response: character `i` is `CHARMAP(OUT[i])` (R97). -/
def Response.text (r : Response) : List Char := r.out.map Config.charMap

end Sys2Proof.Machine
end

