-- ==== Sys2Proof/Machine/ArrayString.lean ====
section
/-! DEFINITION. The array and text sequencer (`44_array_string.md`): the four array commands, `GETSTR`, `GETLEN` and
`GETRLEN`. -/

namespace Sys2Proof.Machine

/-- An array command past its checks: `n` bytes consumed in ascending order, the slots filled from them, `RES = n`
(R91, R92). -/
def fillArray (n : Nat) (slots : List Byte → List Byte) (s : State) : StepResult :=
  match s.consumeN n with
  | none => raiseByteFault s
  | some (bs, s₁) => respondWith n (slots bs) s₁

/-- An array command whose every slot is a one-byte field read with the transformation `xf` (R94 `ElemSigned`), the
slots then laid out by `layout`. An unrecognised transformation is met at the first slot, so not at all when there is
none (R94, decision D19). -/
def fillTransformed (xf : XfField) (n : Nat) (layout : List Byte → List Byte) (s : State) : StepResult :=
  match xf with
  | .known x => fillArray n (fun bs => layout (bs.map (transformByte x))) s
  | .unrecognised _ => if n = 0 then respondWith 0 [] s else raiseMidField 1 s

/-- `GETBYTES n` (R92): slot `i` is byte `i`. -/
def execGetbytes (n : BitVec 16) (s : State) : StepResult :=
  requireMode .byte s (fillArray n.toNat id s)

/-- `GETBYTESR n` (R93): slots filled from the last to the first. -/
def execGetbytesr (n : BitVec 16) (s : State) : StepResult :=
  requireMode .byte s (fillArray n.toNat List.reverse s)

/-- `GETBYTESX xf, n` (R94): with `NONE` filled back to front, as `GETBYTESR`; else every byte transformed, front to
back. -/
def execGetbytesx (xf : XfField) (n : BitVec 16) (s : State) : StepResult :=
  requireMode .byte s
    (if xf = .known .none then fillArray n.toNat List.reverse s else fillTransformed xf n.toNat id s)

/-- `GETBYTESRX xf, n` (R95): with `NONE` as `GETBYTESR`; else every byte transformed, back to front. -/
def execGetbytesrx (xf : XfField) (n : BitVec 16) (s : State) : StepResult :=
  requireMode .byte s
    (if xf = .known .none then fillArray n.toNat List.reverse s else fillTransformed xf n.toNat List.reverse s)

/-- The loop of `GETSTR` (R97): consume until a byte of value 0, which is not kept. The first argument bounds the
bytes still readable; at 0 the next `Consume()` is refused. -/
def State.consumeText : Nat → State → Option (List Byte × State)
  | 0, _ => none
  | fuel + 1, s =>
    match s.consume with
    | none => none
    | some (b, s₁) =>
      if b = 0 then some ([], s₁)
      else
        match State.consumeText fuel s₁ with
        | none => none
        | some (bs, s₂) => some (b :: bs, s₂)

/-- `GETSTR` (R97): the text bytes in stream order, `RES` their number. -/
def execGetstr (s : State) : StepResult :=
  requireMode .byte s
    (match s.consumeText (s.wr - s.rd) with
     | none => raiseByteFault s
     | some (bs, s₁) => respondWith bs.length bs s₁)

/-- `GETLEN` (R98): the remaining writable capacity. -/
def execGetlen (s : State) : StepResult :=
  requireMode .byte s (respond s.writable s)

/-- `GETRLEN` (R99): the remaining readable bytes. -/
def execGetrlen (s : State) : StepResult :=
  requireMode .byte s (respond s.readable s)

end Sys2Proof.Machine
end

