-- ==== Sys2Proof/Machine/BitExtract.lean ====
section
/-! DEFINITION. The bit-field extractor (`41_bit_extract.md`): `GETBITS`, and with it `GETBIT`. -/

namespace Sys2Proof.Machine

/-- `GETBITS amount` past its checks of mode and amount (R67, R69): the bytes of the run are peeked in ascending order,
and one of them is refused exactly when `(BITCUR + amount - 1) >> 3 >= WR`. -/
def extractBits (a : Nat) (s : State) : StepResult :=
  match s.peekN (spanBytes s.bitcur a) (firstByte s.bitcur) with
  | none => raiseBitFault s
  | some bs => respond (sext 32 (gatherBits a (8 - (s.bitcur &&& 7)) bs)) (s.setBitcur (s.bitcur + a))

/-- `GETBITS amount` (R67, R70): Bit mode only, `amount` in 1..32. -/
def execGetbits (amount : BitVec 16) (s : State) : StepResult :=
  requireMode .bit s
    (if amount.toNat < 1 ∨ 32 < amount.toNat then raise .invalidArgument s
     else extractBits amount.toNat s)

end Sys2Proof.Machine
end

