-- ==== Sys2Proof/Machine/FixedWidth.lean ====
section
/-! DEFINITION. The fixed-width decoder (`42_fixed_width.md`): `ReadRaw`, `GETU` and `GETS`. -/

namespace Sys2Proof.Machine

/-- `ReadRaw` (R78) ended by `respond`: the checks in the order of R85, the extent, the bytes consumed and assembled;
`result` makes the result integer of the width in bits and the assembled value. -/
def readRaw (ty : TypeField) (ord : OrdField) (xf : XfField) (result : Nat → Nat → Int) (s : State) : StepResult :=
  match rawPlan ty ord xf with
  | .reject => raise .invalidArgument s
  | .rejectMidField w => raiseMidField w s
  | .legal t o x =>
    match s.consumeN (typeWidth t) with
    | none => raiseByteFault s
    | some (bs, s₁) => respond (result (8 * typeWidth t) (assemble o x (typeWidth t) (fun k => bs.getD k 0))) s₁

/-- `GETU type, order, xf` (R82): the value as an unsigned integer of its width. -/
def execGetu (type : TypeField) (order : OrdField) (xf : XfField) (s : State) : StepResult :=
  requireMode .byte s (readRaw type order xf (fun _ v => (v : Int)) s)

/-- `GETS type, order, xf` (R83, R84): the value sign-extended from bit `8w - 1`; `LONG` is its signed 64-bit
container. -/
def execGets (type : TypeField) (order : OrdField) (xf : XfField) (s : State) : StepResult :=
  requireMode .byte s (readRaw type order xf sext s)

end Sys2Proof.Machine
end

