-- ==== Sys2Proof/Machine/ModeControl.lean ====
section
/-! DEFINITION. The mode controller (`40_mode_control.md`): `SWBIT` and `SWBYTE`. -/

namespace Sys2Proof.Machine

/-- `SWBIT` (R64): in Byte mode `BITCUR <- RD * 8` and enter Bit mode; in Bit mode nothing. -/
def execSwbit (s : State) : StepResult :=
  if s.mode = .byte then respond 0 ((s.setBitcur (s.rd * 8)).setMode .bit)
  else respond 0 s

/-- `SWBYTE` (R65): in Bit mode `RD <- ceil(BITCUR / 8)` and enter Byte mode; in Byte mode nothing. -/
def execSwbyte (s : State) : StepResult :=
  if s.mode = .bit then respond 0 ((s.setRd ((s.bitcur + 7) >>> 3)).setMode .byte)
  else respond 0 s

end Sys2Proof.Machine
end

