-- ==== Sys2Proof/Machine/SmartInteger.lean ====
section
/-! DEFINITION. The smart-integer decoder (`43_smart_integer.md`): `GETSMART`. -/

namespace Sys2Proof.Machine

/-- The one-byte form: consume the byte, minus 64 (R88). -/
def smartShort (s : State) : StepResult :=
  match s.consume with
  | none => raiseByteFault s
  | some (v, s₁) => respond ((v.toNat : Int) - 64) s₁

/-- The two-byte form: a big-endian 16-bit value, minus 49152 (R88). `BufferFault` when only one byte is readable. -/
def smartLong (s : State) : StepResult :=
  match s.consume with
  | none => raiseByteFault s
  | some (hi, s₁) =>
    match s₁.consume with
    | none => raiseByteFault s
    | some (lo, s₂) => respond ((((hi.toNat <<< 8) ||| lo.toNat : Nat) : Int) - 49152) s₂

/-- `GETSMART` (R88): the form is chosen by a peek at `RD`. -/
def execGetsmart (s : State) : StepResult :=
  requireMode .byte s
    (match s.peek s.rd with
     | none => raiseByteFault s
     | some p => if p.toNat < 128 then smartShort s else smartLong s)

end Sys2Proof.Machine
end

