-- ==== Sys2Proof/Machine/Dispatch.lean ====
section
/-! DEFINITION. One arm for each command (R55). -/

namespace Sys2Proof.Machine

def exec (i : Instr) (s : State) : Host.Outcome State Fault Refusal :=
  match i with
  | .swbit => Sys2Proof.Machine.execSwbit s
  | .swbyte => Sys2Proof.Machine.execSwbyte s
  | .getbits amount => Sys2Proof.Machine.execGetbits amount s
  | .getu type order xf => Sys2Proof.Machine.execGetu type order xf s
  | .gets type order xf => Sys2Proof.Machine.execGets type order xf s
  | .getsmart => Sys2Proof.Machine.execGetsmart s
  | .getbytes n => Sys2Proof.Machine.execGetbytes n s
  | .getbytesr n => Sys2Proof.Machine.execGetbytesr n s
  | .getbytesx xf n => Sys2Proof.Machine.execGetbytesx xf n s
  | .getbytesrx xf n => Sys2Proof.Machine.execGetbytesrx xf n s
  | .getstr => Sys2Proof.Machine.execGetstr s
  | .getlen => Sys2Proof.Machine.execGetlen s
  | .getrlen => Sys2Proof.Machine.execGetrlen s

end Sys2Proof.Machine
end

