-- ==== Sys2Proof/Machine/Step.lean ====
section
/-! DEFINITION. One step: the unit takes the host's next action (R6, R44, R120). A command word is decoded and executed
to completion; with nothing pending the unit is idle and keeps its state (R119; log entries 1 and 9). -/

namespace Sys2Proof.Machine

/-- A command word is executed, or answered as an illegal encoding (R56, R58). -/
def runWord (w : CmdWord) (s : State) : StepResult :=
  match decode w with
  | .command i => exec i s
  | .illegal _ => execIllegal s

/-- A command word that `RST` interrupts; an illegal word moves no cursor (R117). -/
def abandonWord (w : CmdWord) (s : State) : StepResult :=
  match decode w with
  | .command i => abandonCommand i s
  | .illegal _ => resetUnit s

/-- One action of the host (R120). -/
def acceptInput (i : Input) (s : State) : StepResult :=
  match i with
  | .cmd w => runWord w s
  | .rst => resetUnit s
  | .cmdRst w => abandonWord w s
  | .bind b => bindBuffer b s

/-- One step of the machine. -/
def step (s : State) : Host.Outcome State Fault Refusal :=
  match s.inputs with
  | [] => .next s
  | i :: rest => acceptInput i (s.setInputs rest)

/-- `s` with the word `w` as the host's next action on `CMD`, so that the next step runs it. A command is one 32-bit
word, so bits above `nbits` are 0 (log entries 1 and 17). -/
def State.withFetchWord (s : State) (_nbits w : Nat) : State :=
  s.setInputs (.cmd (BitVec.ofNat 32 w) :: s.inputs)

end Sys2Proof.Machine
end

