-- ==== Sys2Proof/Safety.lean ====
section
/-! DEFINITION. The terms claims use: the invariant of R25, how a command can end (R23, R102, R105, R108), and the
spec's own closed forms of the values (R35, R68, R75, R80), written apart from the algorithms of the meanings. -/

namespace Sys2Proof.Machine

/-- R25.1: `0 <= RD <= WR <= CAP <= 2^AW - 1`. -/
abbrev State.extentsOk (s : State) : Prop :=
  s.rd ≤ s.wr ∧ s.wr ≤ s.cap ∧ s.cap < 2 ^ Config.addrWidth

/-- The invariant of the unit and its buffer: R25.1; R25.2 (in Bit mode `8 * RD <= BITCUR <= 8 * WR`), its upper bound
in both modes, which is what `AW + 3` bits rest on (R12); and the model's own canonical form of the contents. -/
structure State.Inv (s : State) : Prop where
  mem_wf : s.mem.wf
  extents : s.extentsOk
  bitcur_le : s.bitcur ≤ 8 * s.wr
  bitcur_ge : s.mode = .bit → 8 * s.rd ≤ s.bitcur

/-- The response of a command that ended OK with result integer `v` and output list `out` (R23). -/
def okResponse (v : Int) (out : List Byte) : Option Response := some ⟨.ok, BitVec.ofInt 64 v, out⟩

/-- The command answers status `st` (R23). -/
def Answers (st : Status) (r : StepResult) : Prop :=
  ∃ t rsp, r = .next t ∧ t.rsp = some rsp ∧ rsp.status = st

/-- The command ends with `e` and leaves the state exactly as before but for the response, whose `RES` and `OUT` are
unspecified (R102, R108). -/
def FailsPrecisely (e : ErrorKind) (s : State) (r : StepResult) : Prop :=
  ∃ rsp, rsp.status = .error e ∧ r = .next { s with rsp := some rsp, draws := s.draws + 1 }

/-- The command ends with `e`; `RD` is some value in `RD0 .. hi`, and all else is as before (R81, R105). -/
def FailsWithRdUpTo (hi : Nat) (e : ErrorKind) (s : State) (r : StepResult) : Prop :=
  ∃ rsp rd', rsp.status = .error e ∧ s.rd ≤ rd' ∧ rd' ≤ hi ∧
    r = .next { s with rd := rd', rsp := some rsp, draws := s.draws + 1 }

/-- The command ends with `e`; `BITCUR` is some value in `BITCUR0 .. hi`, and all else is as before (R105). -/
def FailsWithBitcurUpTo (hi : Nat) (e : ErrorKind) (s : State) (r : StepResult) : Prop :=
  ∃ rsp c', rsp.status = .error e ∧ s.bitcur ≤ c' ∧ c' ≤ hi ∧
    r = .next { s with bitcur := c', rsp := some rsp, draws := s.draws + 1 }

/-- A result's next state changed by `f`; a stop is kept. -/
def mapNext (f : State → State) (r : StepResult) : StepResult :=
  match r with
  | .next t => .next (f t)
  | .fault e => .fault e
  | .refused e => .refused e

/-- A second command issued after the first has answered; a stop is kept. -/
def andThen (r : StepResult) (k : State → StepResult) : StepResult :=
  match r with
  | .next t => k t
  | .fault e => .fault e
  | .refused e => .refused e

/-- The legal combinations of recognised selectors (R75). -/
def legalCombination (t : DataType) (o : DataOrder) (x : DataTransformation) : Bool :=
  !isMiddleOrder o || (t == .int && x == .none)

/-- The place of stream byte `k` in a value of `w` bytes, counted in bytes from the low end (R80). -/
def bytePlace (o : DataOrder) (w k : Nat) : Nat :=
  match o with
  | .big => w - 1 - k
  | .little => k
  | .middle => [1, 0, 3, 2].getD k 0
  | .inversedMiddle => [2, 3, 0, 1].getD k 0

/-- The value of a field of `w` bytes by the placement table of R80, the byte in place 0 transformed (R79). -/
def placedValue (o : DataOrder) (x : DataTransformation) (w : Nat) (b : Nat → Byte) : Nat :=
  sumTo (fun k => (if bytePlace o w k = 0 then transformByte x (b k) else b k).toNat * 2 ^ (8 * bytePlace o w k)) w

/-- The value of the field of `w` bytes at `RD`. -/
def State.fieldValue (s : State) (o : DataOrder) (x : DataTransformation) (w : Nat) : Nat :=
  placedValue o x w (fun k => s.byteAt (s.rd + k))

/-- Stream byte `k` of the byte string that stands for `v` (R86): the byte of `v` in that place, the low one
transformed. -/
def fieldByte (o : DataOrder) (x : DataTransformation) (w v k : Nat) : Byte :=
  if bytePlace o w k = 0 then transformByte x (BitVec.ofNat 8 v)
  else BitVec.ofNat 8 (v / 2 ^ (8 * bytePlace o w k))

/-- The closed form of a bit run (R68): the sum over `j` of `bit(c + j) << (amount - 1 - j)`. -/
def State.bitRun (s : State) (c amount : Nat) : Nat :=
  sumTo (fun j => s.streamBit (c + j) * 2 ^ (amount - 1 - j)) amount

/-- The commands that require Byte mode (R63). -/
def needsByteMode : Instr → Bool
  | .swbit | .swbyte | .getbits _ => false
  | .getu _ _ _ | .gets _ _ _ | .getsmart | .getbytes _ | .getbytesr _ | .getbytesx _ _ | .getbytesrx _ _
  | .getstr | .getlen | .getrlen => true

/-- The command that requires Bit mode (R63). -/
def needsBitMode : Instr → Bool
  | .getbits _ => true
  | .swbit | .swbyte | .getu _ _ _ | .gets _ _ _ | .getsmart | .getbytes _ | .getbytesr _ | .getbytesx _ _
  | .getbytesrx _ _ | .getstr | .getlen | .getrlen => false

/-- The mode check of a command fails (R102). -/
abbrev WrongMode (i : Instr) (s : State) : Prop :=
  (needsByteMode i ∧ s.mode = .bit) ∨ (needsBitMode i ∧ s.mode = .byte)

/-- The selectors of `GETU` and `GETS` are not one of the legal combinations (R85). -/
def badSelectors : TypeField → OrdField → XfField → Bool
  | .known t, .known o, .known x => !legalCombination t o x
  | .unrecognised _, _, _ => true
  | .known _, .unrecognised _, _ => true
  | .known _, .known _, .unrecognised _ => true

/-- The argument checks of a command fail (R103, causes 2 to 8). -/
def badArguments : Instr → Bool
  | .getbits a => decide (a.toNat < 1) || decide (32 < a.toNat)
  | .getu t o x => badSelectors t o x
  | .gets t o x => badSelectors t o x
  | .getbytesx (.unrecognised _) n => n != 0
  | .getbytesrx (.unrecognised _) n => n != 0
  | .getbytesx (.known _) _ | .getbytesrx (.known _) _ => false
  | .swbit | .swbyte | .getsmart | .getbytes _ | .getbytesr _ | .getstr | .getlen | .getrlen => false

/-- A command whose checks of mode and arguments pass needs a byte at or beyond `WR` (R104). -/
def ShortOfBytes (i : Instr) (s : State) : Prop :=
  match i with
  | .getbits a => 8 * s.wr < s.bitcur + a.toNat
  | .getu (.known t) _ _ => s.wr < s.rd + typeWidth t
  | .gets (.known t) _ _ => s.wr < s.rd + typeWidth t
  | .getu (.unrecognised _) _ _ => False
  | .gets (.unrecognised _) _ _ => False
  | .getsmart => s.wr < s.rd + 1 ∨ (s.wr < s.rd + 2 ∧ 128 ≤ (s.byteAt s.rd).toNat)
  | .getbytes n => s.wr < s.rd + n.toNat
  | .getbytesr n => s.wr < s.rd + n.toNat
  | .getbytesx _ n => s.wr < s.rd + n.toNat
  | .getbytesrx _ n => s.wr < s.rd + n.toNat
  | .getstr => ∀ i, s.rd ≤ i → i < s.wr → s.byteAt i ≠ 0
  | .swbit | .swbyte | .getlen | .getrlen => False

/-- The `n` stream bytes from `RD` on (R96's `s[k]`). -/
def State.streamBytes (s : State) (n : Nat) : List Byte := (List.range n).map (fun k => s.byteAt (s.rd + k))

/-- The next zero byte stands `l` bytes after `RD`, among the readable bytes (R97). -/
abbrev State.TextLength (s : State) (l : Nat) : Prop :=
  s.rd + l < s.wr ∧ s.byteAt (s.rd + l) = 0 ∧ ∀ k < l, s.byteAt (s.rd + k) ≠ 0

end Sys2Proof.Machine
end

