-- ==== Sys2Proof/Certificates/Slice0/Obligations.lean ====
section
/-! DEFINITION. The statements for the provers. Each docstring names the rule of the spec it formalises or rests on.
`FailsPrecisely`, `FailsWithRdUpTo` and `FailsWithBitcurUpTo` (`Safety.lean`) state the whole next state of a failing
command, and an equation `exec i s = .next (a record update of s)` the whole next state of a succeeding one, so both
carry their frame: every field not named is unchanged. -/

open Sys2Proof Sys2Proof.Machine

-- Encoding ----------------------------------------------------------------------------------------------------

/-- The words R55 works out ("How to build a word"), and one word of every further command, decode to the commands they
stand for. -/
def Obligations.SpecWordsDecode : Prop :=
  decode 0x44400000 = .command (.getu (.known .int) (.known .middle) (.known .none)) ∧
  decode 0x52240000 = .command (.gets (.known .short) (.known .little) (.known .add)) ∧
  decode 0x3000000B = .command (.getbits 11) ∧
  decode 0x900C0003 = .command (.getbytesx (.known .negate) 3) ∧
  decode 0xA0140003 = .command (.getbytesrx (.unrecognised 5) 3) ∧
  decode 0x45E00000 = .command (.getu (.unrecognised 5) (.unrecognised 7) (.known .none)) ∧
  decode 0x10000000 = .command .swbit ∧
  decode 0x20000000 = .command .swbyte ∧
  decode 0x60000000 = .command .getsmart ∧
  decode 0x7000FFFF = .command (.getbytes 65535) ∧
  decode 0x80000001 = .command (.getbytesr 1) ∧
  decode 0xB0000000 = .command .getstr ∧
  decode 0xC0000000 = .command .getlen ∧
  decode 0xD0000000 = .command .getrlen

/-- Decoding the word of a well-formed command gives the command back, with every operand at every value its field
admits (R50 to R55). -/
def Obligations.DecodeOfEncodeIsTheCommand : Prop :=
  ∀ i : Instr, i.wf = true → decode (encode i) = .command i

/-- A command has exactly one spelling (R54, decision D6): a word that decodes to it is its encoding, and only
well-formed terms are decoded. -/
def Obligations.EveryCommandHasOneSpelling : Prop :=
  ∀ (w : CmdWord) (i : Instr), decode w = .command i → i.wf = true ∧ encode i = w

/-- R58's decoder: a word is the command of the one row of R55 whose masked bits match, with the fields sliced as R48
says; a word that matches no row is illegal. -/
def Obligations.DecodeIsTheOpcodeMap : Prop :=
  ∀ w : CmdWord,
    (∃ o : Op, o.row.holds w = true ∧ (∀ o' : Op, o'.row.holds w = true → o' = o) ∧
      decode w = .command (buildInstr o
        ⟨w.extractLsb' 28 4, w.extractLsb' 24 4, w.extractLsb' 21 3, w.extractLsb' 18 3, w.extractLsb' 16 2,
         w.extractLsb' 0 16⟩)) ∨
    ((∀ o : Op, o.row.holds w = false) ∧ ∃ why, decode w = .illegal why)

/-- The three ways a word is reserved, field by field (R54, R56). -/
def ReservedWord (w : CmdWord) : Prop :=
  let f := splitWord w
  (f.op = 0x0 ∨ f.op = 0xE ∨ f.op = 0xF) ∨ f.rsv ≠ 0 ∨
  (f.op ≠ 0x4 ∧ f.op ≠ 0x5 ∧ (f.ty ≠ 0 ∨ f.ord ≠ 0)) ∨
  (f.op ≠ 0x4 ∧ f.op ≠ 0x5 ∧ f.op ≠ 0x9 ∧ f.op ≠ 0xA ∧ f.xf ≠ 0) ∨
  (f.op ≠ 0x3 ∧ f.op ≠ 0x7 ∧ f.op ≠ 0x8 ∧ f.op ≠ 0x9 ∧ f.op ≠ 0xA ∧ f.imm ≠ 0)

/-- R54, R56: a reserved word is answered with `InvalidArgumentError` and changes nothing, whatever `MODE` is; every
other word is a command; the all-zero and the all-ones word are reserved. -/
def Obligations.ReservedWordsAreIllegal : Prop :=
  (∀ (w : CmdWord) (s : State), ReservedWord w → FailsPrecisely .invalidArgument s (runWord w s)) ∧
  (∀ w : CmdWord, ¬ ReservedWord w → ∃ i, decode w = .command i) ∧
  ReservedWord 0x00000000 ∧ ReservedWord 0xFFFFFFFF

-- The step ----------------------------------------------------------------------------------------------------

/-- A step whose next input is a command word that decodes to `i` is `exec i`, the word taken from the inputs (R44;
the inputs are the model's, log entry 1). -/
def Obligations.StepRunsTheDecodedCommand : Prop :=
  ∀ (s : State) (w : CmdWord) (rest : List Input) (i : Instr),
    s.inputs = .cmd w :: rest → decode w = .command i → step s = exec i { s with inputs := rest }

/-- With nothing pending a step keeps the state (R119; the model's choice of an idle step, log entry 9). -/
def Obligations.IdleStepKeepsTheState : Prop :=
  ∀ s : State, s.inputs = [] → step s = .next s

/-- R116 and R26: `RST` sets `MODE` to Byte and `BITCUR` to 0, leaves no response outstanding and touches nothing else,
`MEM`, `RD`, `WR` and `CAP` least of all; and the state right after reset has these values. -/
def Obligations.ResetSetsTheReader : Prop :=
  (∀ (s : State) (rest : List Input), s.inputs = .rst :: rest → s.rd ≤ s.wr → s.wr ≤ s.cap →
    step s = .next { s with inputs := rest, mode := .byte, bitcur := 0, rsp := none }) ∧
  State.reset.mode = .byte ∧ State.reset.bitcur = 0 ∧ State.reset.rsp = none

/-- R117: a command that `RST` interrupts answers nothing; `RD` is left in `RD0 .. WR`; the rest is the reset's. `RD` is
left where it was by an illegal word, by `SWBIT`, `GETBITS`, `GETLEN` and `GETRLEN`, by `SWBYTE` in Byte mode and by every
byte-oriented command in Bit mode. Which commands move `RD`, and `SWBYTE`'s range, are log entry 16. -/
def Obligations.ResetAbandonsTheCommand : Prop :=
  ∀ (s : State) (w : CmdWord) (rest : List Input),
    s.inputs = .cmdRst w :: rest → s.rd ≤ s.wr → s.wr ≤ s.cap →
    ∃ r d, s.rd ≤ r ∧ r ≤ s.wr ∧
      step s = .next { s with inputs := rest, mode := .byte, bitcur := 0, rsp := none, rd := r, draws := d } ∧
      ((∃ why, decode w = .illegal why) → r = s.rd) ∧
      ∀ i, decode w = .command i →
        (i = .swbit ∨ (∃ a, i = .getbits a) ∨ i = .getlen ∨ i = .getrlen ∨ (i = .swbyte ∧ s.mode = .byte) ∨
          (needsByteMode i = true ∧ s.mode = .bit)) → r = s.rd

/-- R118: a buffer with `RD <= WR <= CAP <= 2^AW - 1` is bound and the unit reset (one input of the model, log entries
1 and 15); the bytes read back at their indices, in canonical form. -/
def Obligations.BindingPlacesTheBuffer : Prop :=
  ∀ (s : State) (b : BufferImage) (rest : List Input),
    s.inputs = .bind b :: rest → b.rd ≤ b.wr → b.wr ≤ b.bytes.length → b.bytes.length < 2 ^ Config.addrWidth →
    ∃ t, step s = .next t ∧ t.mode = .byte ∧ t.bitcur = 0 ∧ t.rsp = none ∧ t.inputs = rest ∧
      t.rd = b.rd ∧ t.wr = b.wr ∧ t.cap = b.bytes.length ∧ t.mem.wf ∧
      ∀ (i : Nat) (h : i < b.bytes.length), t.byteAt i = b.bytes[i]

/-- The spec's table refuses a reset released with `RD > WR` or `WR > CAP`, and a bound buffer's `CAP` is at most
`2^AW - 1` (U18, R118): the model refuses a binding on each of the three grounds, and a reset on the first two (log
entry 10). -/
def Obligations.BadBindingIsRefused : Prop :=
  (∀ (s : State) (b : BufferImage) (rest : List Input), s.inputs = .bind b :: rest →
    (b.wr < b.rd ∨ b.bytes.length < b.wr ∨ 2 ^ Config.addrWidth ≤ b.bytes.length) → step s = .refused .badBinding) ∧
  (∀ (s : State) (a : Input) (rest : List Input), s.inputs = a :: rest → (a = .rst ∨ ∃ w, a = .cmdRst w) →
    (s.wr < s.rd ∨ s.cap < s.wr) → step s = .refused .badBinding)

-- Mode control ------------------------------------------------------------------------------------------------

/-- R64: `SWBIT` in each mode, its word, and its corner `RD = WR`: it succeeds and the next `GETBITS` faults. -/
def Obligations.SwbitEntersBitMode : Prop :=
  encode .swbit = 0x10000000 ∧
  (∀ s : State, s.mode = .byte →
    exec .swbit s = .next { s with mode := .bit, bitcur := s.rd * 8, rsp := okResponse 0 [] }) ∧
  (∀ s : State, s.mode = .bit → exec .swbit s = .next { s with rsp := okResponse 0 [] }) ∧
  (∀ (s : State) (a : BitVec 16), s.mode = .byte → s.rd = s.wr → 1 ≤ a.toNat → a.toNat ≤ 32 →
    Answers (.error .bufferFault) (andThen (exec .swbit s) (exec (.getbits a))))

/-- R65: `SWBYTE` in each mode and its word; the new `RD` is `BITCUR / 8` from an aligned cursor, one more from any
other, and at most `WR` in a state that meets R25. -/
def Obligations.SwbyteReturnsToTheNextByte : Prop :=
  encode .swbyte = 0x20000000 ∧
  (∀ s : State, s.mode = .bit →
    exec .swbyte s = .next { s with mode := .byte, rd := (s.bitcur + 7) / 8, rsp := okResponse 0 [] }) ∧
  (∀ s : State, s.mode = .byte → exec .swbyte s = .next { s with rsp := okResponse 0 [] }) ∧
  (∀ s t : State, s.mode = .bit → s.bitcur % 8 = 0 → exec .swbyte s = .next t → t.rd = s.bitcur / 8) ∧
  (∀ s t : State, s.mode = .bit → s.bitcur % 8 ≠ 0 → exec .swbyte s = .next t → t.rd = s.bitcur / 8 + 1) ∧
  (∀ s t : State, s.mode = .bit → s.Inv → exec .swbyte s = .next t → t.rd ≤ t.wr)

/-- Laws 1 to 4 of R66, for commands issued in sequence. -/
def Obligations.ModeSwitchLaws : Prop :=
  (∀ s : State, s.mode = .byte →
    andThen (exec .swbit s) (exec .swbyte) = .next { s with bitcur := 8 * s.rd, rsp := okResponse 0 [] }) ∧
  (∀ (s : State) (a : BitVec 16), s.mode = .byte → 1 ≤ a.toNat → a.toNat ≤ 32 → 8 * s.rd + a.toNat ≤ 8 * s.wr →
    andThen (andThen (exec .swbit s) (exec (.getbits a))) (exec .swbyte) =
      .next { s with rd := s.rd + (a.toNat + 7) / 8, bitcur := 8 * s.rd + a.toNat, rsp := okResponse 0 [] }) ∧
  (∀ s : State, andThen (exec .swbit s) (exec .swbit) = exec .swbit s ∧
    andThen (exec .swbyte s) (exec .swbyte) = exec .swbyte s) ∧
  (∀ s : State, s.mode = .bit →
    andThen (exec .swbyte s) (exec .swbit) =
      .next { s with rd := (s.bitcur + 7) / 8, bitcur := 8 * ((s.bitcur + 7) / 8), rsp := okResponse 0 [] })

/-- The "next" column of R62: the two switches set `MODE`, every other command, whether it succeeds or fails, and every
illegal word leaves it. -/
def Obligations.OnlySwitchesChangeMode : Prop :=
  (∀ s t : State, exec .swbit s = .next t → t.mode = .bit) ∧
  (∀ s t : State, exec .swbyte s = .next t → t.mode = .byte) ∧
  (∀ (i : Instr) (s t : State), i ≠ .swbit → i ≠ .swbyte → exec i s = .next t → t.mode = s.mode) ∧
  (∀ (w : CmdWord) (why : Illegal) (s t : State), decode w = .illegal why → runWord w s = .next t → t.mode = s.mode)

-- Bit extraction ----------------------------------------------------------------------------------------------

/-- R67 with the value in the closed form of R68: the word of `GETBITS`; then `GETBITS` in Byte mode, with a rejected
amount, past the readable extent, and completing: the run of `amount` bits from `BITCUR`, the first one most significant,
as a signed 32-bit container (R69). -/
def Obligations.GetbitsAnswersTheBitRun : Prop :=
  (∀ a : BitVec 16, encode (.getbits a) = 0x30000000 ||| a.setWidth 32) ∧
  (∀ (s : State) (a : BitVec 16), s.mode = .byte → FailsPrecisely .invalidMode s (exec (.getbits a) s)) ∧
  (∀ (s : State) (a : BitVec 16), s.mode = .bit → (a.toNat < 1 ∨ 32 < a.toNat) →
    FailsPrecisely .invalidArgument s (exec (.getbits a) s)) ∧
  (∀ (s : State) (a : BitVec 16), s.mode = .bit → 1 ≤ a.toNat → a.toNat ≤ 32 → s.bitcur ≤ 8 * s.wr →
    8 * s.wr < s.bitcur + a.toNat → FailsWithBitcurUpTo (8 * s.wr) .bufferFault s (exec (.getbits a) s)) ∧
  (∀ (s : State) (a : BitVec 16), s.mode = .bit → 1 ≤ a.toNat → a.toNat ≤ 32 →
    s.bitcur + a.toNat ≤ 8 * s.wr →
    exec (.getbits a) s = .next { s with
      bitcur := s.bitcur + a.toNat, rsp := okResponse (sext 32 (s.bitRun s.bitcur a.toNat)) [] })

/-- R69: the extracted bits stand in `RES[31:0]`, the bits above copy bit 31, and for `amount <= 31` the result is the
unsigned value. -/
def Obligations.GetbitsContainer : Prop :=
  ∀ (s : State) (a : BitVec 16), s.mode = .bit → 1 ≤ a.toNat → a.toNat ≤ 32 → s.bitcur + a.toNat ≤ 8 * s.wr →
    ∃ (t : State) (rsp : Response) (v : Nat), exec (.getbits a) s = .next t ∧ t.rsp = some rsp ∧ rsp.status = .ok ∧
      v = s.bitRun s.bitcur a.toNat ∧ v < 2 ^ a.toNat ∧
      rsp.res.extractLsb' 0 32 = BitVec.ofNat 32 v ∧
      (∀ k, 32 ≤ k → k < 64 → rsp.res.getLsbD k = v.testBit 31) ∧
      (a.toNat ≤ 31 → rsp.res.toInt = v) ∧
      (a.toNat = 32 → rsp.res.toInt = if v < 2 ^ 31 then (v : Int) else (v : Int) - 2 ^ 32)

/-- R70: the legal amounts are 1 to 32; any other is `InvalidArgumentError` after the mode check, with no state
change. -/
def Obligations.GetbitsAmountRange : Prop :=
  ∀ (s : State) (a : BitVec 16),
    (s.mode = .byte → FailsPrecisely .invalidMode s (exec (.getbits a) s)) ∧
    (s.mode = .bit → (a.toNat = 0 ∨ 33 ≤ a.toNat) → FailsPrecisely .invalidArgument s (exec (.getbits a) s)) ∧
    (s.mode = .bit → 1 ≤ a.toNat → a.toNat ≤ 32 → ¬ Answers (.error .invalidArgument) (exec (.getbits a) s))

/-- R72: `GETBIT` is the word `0x30000001`; it answers the next stream bit and advances by 1. -/
def Obligations.GetbitReadsOneBit : Prop :=
  encode Instr.getbit = 0x30000001 ∧ Instr.getbit = .getbits 1 ∧
  ∀ s : State, s.mode = .bit → s.bitcur < 8 * s.wr →
    exec Instr.getbit s = .next { s with bitcur := s.bitcur + 1, rsp := okResponse (s.streamBit s.bitcur) [] } ∧
    (s.streamBit s.bitcur = 0 ∨ s.streamBit s.bitcur = 1)

/-- R73, law 3: a run read in two pieces is the run read at once. -/
def Obligations.GetbitsSplits : Prop :=
  ∀ (s : State) (a b c : BitVec 16), s.mode = .bit → 1 ≤ a.toNat → 1 ≤ b.toNat → c.toNat = a.toNat + b.toNat →
    c.toNat ≤ 32 → s.bitcur + c.toNat ≤ 8 * s.wr →
    ∃ x y : Nat, x < 2 ^ a.toNat ∧ y < 2 ^ b.toNat ∧
      exec (.getbits a) s =
        .next { s with bitcur := s.bitcur + a.toNat, rsp := okResponse (sext 32 x) [] } ∧
      exec (.getbits b) { s with bitcur := s.bitcur + a.toNat, rsp := okResponse (sext 32 x) [] } =
        .next { s with bitcur := s.bitcur + c.toNat, rsp := okResponse (sext 32 y) [] } ∧
      exec (.getbits c) s =
        .next { s with bitcur := s.bitcur + c.toNat, rsp := okResponse (sext 32 (x * 2 ^ b.toNat + y)) [] }

/-- R37: the bit view and the byte view are the same bytes. From an aligned bit cursor `GETBITS 8w` and `GETU` of width
`w`, `BIG`, `NONE`, at the same byte answer the same `8w`-bit pattern. -/
def Obligations.BitViewEqualsByteView : Prop :=
  ∀ (s : State) (p : Nat) (t : DataType) (a : BitVec 16), t ≠ .long → a.toNat = 8 * typeWidth t →
    p + typeWidth t ≤ s.wr →
    ∃ v : Nat, v < 2 ^ (8 * typeWidth t) ∧
      exec (.getbits a) { s with mode := .bit, bitcur := 8 * p } =
        .next { s with mode := .bit, bitcur := 8 * p + a.toNat, rsp := okResponse (sext 32 v) [] } ∧
      exec (.getu (.known t) (.known .big) (.known .none)) { s with mode := .byte, rd := p } =
        .next { s with mode := .byte, rd := p + typeWidth t, rsp := okResponse v [] }

/-- R40, R115: a run of at most 32 bits touches 1 to 5 bytes, from `BITCUR >> 3` through
`(BITCUR + amount - 1) >> 3`. -/
def Obligations.BitRunTouchesAtMostFiveBytes : Prop :=
  ∀ c a : Nat, 1 ≤ a → a ≤ 32 →
    1 ≤ spanBytes c a ∧ spanBytes c a ≤ 5 ∧ firstByte c + spanBytes c a = (c + a - 1) / 8 + 1

-- Fixed-width reads -------------------------------------------------------------------------------------------

/-- R76: the four formulas on the raw byte, read signed or unsigned, the corner values of its table, and the result of
a one-byte `GETU` under each of them. -/
def Obligations.TransformationFormulas : Prop :=
  (∀ r : Byte,
    ((transformByte .none r).toNat : Int) = (r.toNat : Int) % 256 ∧
    ((transformByte .add r).toNat : Int) = ((r.toNat : Int) - 128) % 256 ∧
    ((transformByte .subtract r).toNat : Int) = (128 - (r.toNat : Int)) % 256 ∧
    ((transformByte .negate r).toNat : Int) = (0 - (r.toNat : Int)) % 256 ∧
    ((transformByte .none r).toNat : Int) = r.toInt % 256 ∧
    ((transformByte .add r).toNat : Int) = (r.toInt - 128) % 256 ∧
    ((transformByte .subtract r).toNat : Int) = (128 - r.toInt) % 256 ∧
    ((transformByte .negate r).toNat : Int) = (0 - r.toInt) % 256) ∧
  [0x00, 0x01, 0x7F, 0x80, 0x81, 0xFF].map (transformByte .add) = [0x80, 0x81, 0xFF, 0x00, 0x01, 0x7F] ∧
  [0x00, 0x01, 0x7F, 0x80, 0x81, 0xFF].map (transformByte .subtract) = [0x80, 0x7F, 0x01, 0x00, 0xFF, 0x81] ∧
  [0x00, 0x01, 0x7F, 0x80, 0x81, 0xFF].map (transformByte .negate) = [0x00, 0xFF, 0x81, 0x80, 0x7F, 0x01] ∧
  ∀ (s : State) (o : DataOrder), s.mode = .byte → isMiddleOrder o = false → s.rd < s.wr →
    exec (.getu (.known .byte) (.known o) (.known .none)) s =
      .next { s with rd := s.rd + 1, rsp := okResponse ((s.byteAt s.rd).toNat % 256) [] } ∧
    exec (.getu (.known .byte) (.known o) (.known .add)) s =
      .next { s with rd := s.rd + 1, rsp := okResponse (((s.byteAt s.rd).toNat - 128) % 256) [] } ∧
    exec (.getu (.known .byte) (.known o) (.known .subtract)) s =
      .next { s with rd := s.rd + 1, rsp := okResponse ((128 - (s.byteAt s.rd).toNat) % 256) [] } ∧
    exec (.getu (.known .byte) (.known o) (.known .negate)) s =
      .next { s with rd := s.rd + 1, rsp := okResponse ((0 - (s.byteAt s.rd).toNat) % 256) [] }

/-- R77: each transformation is its own inverse; `ADD` flips the top bit; `SUBTRACT` is `NEGATE` after `ADD`. -/
def Obligations.TransformationsAreInvolutions : Prop :=
  (∀ (x : DataTransformation) (r : Byte), transformByte x (transformByte x r) = r) ∧
  (∀ r : Byte, transformByte .add r = r ^^^ 0x80 ∧
    transformByte .subtract r = transformByte .negate (transformByte .add r))

/-- R79: exactly the byte of the low eight bits is transformed: the last one read under `BIG`, the first one read under
`LITTLE`; under the two middle orders `b[1]` and `b[2]` land there, untouched. -/
def Obligations.TransformationTouchesTheLowByteOnly : Prop :=
  ∀ (t : DataType) (x : DataTransformation) (b : Nat → Byte),
    assemble .big x (typeWidth t) b % 256 = (transformByte x (b (typeWidth t - 1))).toNat ∧
    assemble .big x (typeWidth t) b / 256 = assemble .big .none (typeWidth t) b / 256 ∧
    assemble .little x (typeWidth t) b % 256 = (transformByte x (b 0)).toNat ∧
    assemble .little x (typeWidth t) b / 256 = assemble .little .none (typeWidth t) b / 256 ∧
    assemble .middle .none 4 b % 256 = (b 1).toNat ∧
    assemble .inversedMiddle .none 4 b % 256 = (b 2).toNat

/-- R82 with the value by the placement table of R80: the word of `GETU`, its three errors, and its completion on every
legal combination, the value below `2^(8w)`. -/
def Obligations.GetuAnswersThePlacedValue : Prop :=
  (∀ t o x, encode (.getu t o x) = 0x40000000 ||| (t.code.setWidth 32 <<< 24) ||| (o.code.setWidth 32 <<< 21) |||
    (x.code.setWidth 32 <<< 18)) ∧
  (∀ t o x (s : State), s.mode = .bit → FailsPrecisely .invalidMode s (exec (.getu t o x) s)) ∧
  (∀ t o x (s : State), s.mode = .byte → badSelectors t o x = true →
    Answers (.error .invalidArgument) (exec (.getu t o x) s)) ∧
  (∀ (s : State) (t : DataType) (o : DataOrder) (x : DataTransformation), s.mode = .byte →
    legalCombination t o x = true → s.rd ≤ s.wr → s.wr < s.rd + typeWidth t →
    FailsWithRdUpTo s.wr .bufferFault s (exec (.getu (.known t) (.known o) (.known x)) s)) ∧
  (∀ (s : State) (t : DataType) (o : DataOrder) (x : DataTransformation), s.mode = .byte →
    legalCombination t o x = true → s.rd + typeWidth t ≤ s.wr →
    ∃ v : Nat, v = s.fieldValue o x (typeWidth t) ∧ v < 2 ^ (8 * typeWidth t) ∧
      exec (.getu (.known t) (.known o) (.known x)) s =
        .next { s with rd := s.rd + typeWidth t, rsp := okResponse v [] })

/-- R83, with the value by the placement table of R80: the word of `GETS`, its three errors, and its completion on every
legal combination; a value above `2^(8w-1) - 1` has `2^(8w)` subtracted, for `LONG` as the reading of the signed 64-bit
container. -/
def Obligations.GetsAnswersTheSignedValue : Prop :=
  (∀ t o x, encode (.gets t o x) = 0x50000000 ||| (t.code.setWidth 32 <<< 24) ||| (o.code.setWidth 32 <<< 21) |||
    (x.code.setWidth 32 <<< 18)) ∧
  (∀ t o x (s : State), s.mode = .bit → FailsPrecisely .invalidMode s (exec (.gets t o x) s)) ∧
  (∀ t o x (s : State), s.mode = .byte → badSelectors t o x = true →
    Answers (.error .invalidArgument) (exec (.gets t o x) s)) ∧
  (∀ (s : State) (t : DataType) (o : DataOrder) (x : DataTransformation), s.mode = .byte →
    legalCombination t o x = true → s.rd ≤ s.wr → s.wr < s.rd + typeWidth t →
    FailsWithRdUpTo s.wr .bufferFault s (exec (.gets (.known t) (.known o) (.known x)) s)) ∧
  ∀ (s : State) (t : DataType) (o : DataOrder) (x : DataTransformation), s.mode = .byte →
    legalCombination t o x = true → s.rd + typeWidth t ≤ s.wr →
    ∃ v : Nat, v = s.fieldValue o x (typeWidth t) ∧ v < 2 ^ (8 * typeWidth t) ∧
      exec (.gets (.known t) (.known o) (.known x)) s =
        .next { s with
          rd := s.rd + typeWidth t,
          rsp := okResponse
            (if v ≤ 2 ^ (8 * typeWidth t - 1) - 1 then (v : Int) else (v : Int) - 2 ^ (8 * typeWidth t)) [] }

/-- R84: for every width `RES[8w-1:0]` is the value read (by the placement table of R80), every bit above copies bit `8w - 1` for `GETS` and is 0 for
`GETU`. -/
def Obligations.SignExtensionUnit : Prop :=
  ∀ (s : State) (t : DataType) (o : DataOrder) (x : DataTransformation), s.mode = .byte →
    legalCombination t o x = true → s.rd + typeWidth t ≤ s.wr →
    ∃ (v : Nat) (tu ts : State) (ru rs : Response),
      v = s.fieldValue o x (typeWidth t) ∧ v < 2 ^ (8 * typeWidth t) ∧
      exec (.getu (.known t) (.known o) (.known x)) s = .next tu ∧ tu.rsp = some ru ∧ ru.status = .ok ∧
      exec (.gets (.known t) (.known o) (.known x)) s = .next ts ∧ ts.rsp = some rs ∧ rs.status = .ok ∧
      rs.res.toInt = (if v ≤ 2 ^ (8 * typeWidth t - 1) - 1 then (v : Int) else (v : Int) - 2 ^ (8 * typeWidth t)) ∧
      ∀ k, k < 64 →
        ru.res.getLsbD k = (decide (k < 8 * typeWidth t) && v.testBit k) ∧
        rs.res.getLsbD k = (if k < 8 * typeWidth t then v.testBit k else v.testBit (8 * typeWidth t - 1))

/-- R85 and R81: the five causes of `InvalidArgumentError` in this family, whatever is readable. The first four consume
nothing; an unrecognised transformation under `BIG` or `LITTLE` leaves `RD` anywhere in `RD0 .. min(RD0 + w, WR)`. -/
def Obligations.FixedWidthArgumentErrors : Prop :=
  ∀ cmd : TypeField → OrdField → XfField → Instr, (cmd = Instr.getu ∨ cmd = Instr.gets) →
    ∀ s : State, s.mode = .byte →
      (∀ c o x, FailsPrecisely .invalidArgument s (exec (cmd (.unrecognised c) o x) s)) ∧
      (∀ t c x, FailsPrecisely .invalidArgument s (exec (cmd (.known t) (.unrecognised c) x) s)) ∧
      (∀ t o x, isMiddleOrder o = true → x ≠ .known .none →
        FailsPrecisely .invalidArgument s (exec (cmd (.known t) (.known o) x) s)) ∧
      (∀ t o x, isMiddleOrder o = true → t ≠ .int →
        FailsPrecisely .invalidArgument s (exec (cmd (.known t) (.known o) x) s)) ∧
      (∀ t o c, isMiddleOrder o = false → s.rd ≤ s.wr →
        FailsWithRdUpTo (min (s.rd + typeWidth t) s.wr) .invalidArgument s
          (exec (cmd (.known t) (.known o) (.unrecognised c)) s))

/-- R86: for each legal combination `ReadRaw` is a bijection between byte strings and values. `GETU` answers `v` exactly
when the bytes at `RD` are the byte string that stands for `v`. -/
def Obligations.FixedWidthRoundTrip : Prop :=
  ∀ (s : State) (t : DataType) (o : DataOrder) (x : DataTransformation) (v : Nat), s.mode = .byte →
    legalCombination t o x = true → s.rd + typeWidth t ≤ s.wr → v < 2 ^ (8 * typeWidth t) →
    (exec (.getu (.known t) (.known o) (.known x)) s =
        .next { s with rd := s.rd + typeWidth t, rsp := okResponse v [] } ↔
      ∀ k < typeWidth t, s.byteAt (s.rd + k) = fieldByte o x (typeWidth t) v k)

/-- R87, points 2 and 3: `BIG` and `LITTLE` are one order for a single byte, whatever the transformation; a `BIG` value
is its first byte above the value of the rest. -/
def Obligations.BigOrderLaws : Prop :=
  (∀ (s : State) (x : XfField),
    exec (.getu (.known .byte) (.known .big) x) s = exec (.getu (.known .byte) (.known .little) x) s ∧
    exec (.gets (.known .byte) (.known .big) x) s = exec (.gets (.known .byte) (.known .little) x) s) ∧
  (∀ (w : Nat) (b : Nat → Byte), 1 ≤ w →
    assemble .big .none (w + 1) b = (b 0).toNat * 2 ^ (8 * w) + assemble .big .none w (fun k => b (k + 1)))

-- Smart integer -----------------------------------------------------------------------------------------------

/-- R88: `GETSMART` in Bit mode, with nothing readable, in its one-byte form, in its two-byte form cut short, and in
its two-byte form. -/
def Obligations.GetsmartForms : Prop :=
  encode .getsmart = 0x60000000 ∧
  (∀ s : State, s.mode = .bit → FailsPrecisely .invalidMode s (exec .getsmart s)) ∧
  (∀ s : State, s.mode = .byte → s.rd = s.wr → FailsWithRdUpTo s.wr .bufferFault s (exec .getsmart s)) ∧
  (∀ s : State, s.mode = .byte → s.rd < s.wr → (s.byteAt s.rd).toNat < 128 →
    exec .getsmart s =
      .next { s with rd := s.rd + 1, rsp := okResponse ((s.byteAt s.rd).toNat - 64) [] }) ∧
  (∀ s : State, s.mode = .byte → s.rd + 1 = s.wr → 128 ≤ (s.byteAt s.rd).toNat →
    FailsWithRdUpTo s.wr .bufferFault s (exec .getsmart s)) ∧
  (∀ s : State, s.mode = .byte → s.rd + 1 < s.wr → 128 ≤ (s.byteAt s.rd).toNat →
    exec .getsmart s =
      .next { s with
        rd := s.rd + 2,
        rsp := okResponse ((s.byteAt s.rd).toNat * 256 + (s.byteAt (s.rd + 1)).toNat - 49152) [] })

/-- R89: the source's four reference values, with their `RES`. -/
def Obligations.GetsmartReferenceValues : Prop :=
  ∀ s : State, s.mode = .byte →
    (s.rd < s.wr → s.byteAt s.rd = 0x00 →
      exec .getsmart s = .next { s with rd := s.rd + 1, rsp := some ⟨.ok, 0xFFFFFFFFFFFFFFC0, []⟩ }) ∧
    (s.rd < s.wr → s.byteAt s.rd = 0x7F →
      exec .getsmart s = .next { s with rd := s.rd + 1, rsp := some ⟨.ok, 0x000000000000003F, []⟩ }) ∧
    (s.rd + 1 < s.wr → s.byteAt s.rd = 0x80 → s.byteAt (s.rd + 1) = 0x00 →
      exec .getsmart s = .next { s with rd := s.rd + 2, rsp := some ⟨.ok, 0xFFFFFFFFFFFFC000, []⟩ }) ∧
    (s.rd + 1 < s.wr → s.byteAt s.rd = 0xFF → s.byteAt (s.rd + 1) = 0xFF →
      exec .getsmart s = .next { s with rd := s.rd + 2, rsp := some ⟨.ok, 0x0000000000003FFF, []⟩ })

/-- R90, points 1 and 3: a result of `GETSMART` lies in `-16384 .. 16383` and `1 + p[7]` bytes are consumed. -/
def Obligations.GetsmartRange : Prop :=
  ∀ (s t : State) (r : Response), s.mode = .byte → exec .getsmart s = .next t → t.rsp = some r → r.status = .ok →
    -16384 ≤ r.res.toInt ∧ r.res.toInt ≤ 16383 ∧ r.out = [] ∧
    t.rd = s.rd + 1 + (if (s.byteAt s.rd).getLsbD 7 then 1 else 0)

-- Arrays, text and length queries -----------------------------------------------------------------------------

/-- R92: `GETBYTES n`: slot `i` holds stream byte `i`; its error cases and its word. -/
def Obligations.GetbytesFillsForward : Prop :=
  ∀ (s : State) (n : BitVec 16),
    encode (.getbytes n) = 0x70000000 ||| n.setWidth 32 ∧
    (s.mode = .bit → FailsPrecisely .invalidMode s (exec (.getbytes n) s)) ∧
    (s.mode = .byte → s.rd ≤ s.wr → s.wr < s.rd + n.toNat →
      FailsWithRdUpTo s.wr .bufferFault s (exec (.getbytes n) s)) ∧
    (s.mode = .byte → s.rd + n.toNat ≤ s.wr →
      exec (.getbytes n) s =
        .next { s with rd := s.rd + n.toNat, rsp := okResponse n.toNat (s.streamBytes n.toNat) })

/-- R93: `GETBYTESR n`: slot `i` holds stream byte `n - 1 - i`; its error cases and its word; the bytes are read in the
order `GETBYTES` reads them, so the two agree for `n` = 0 and 1. -/
def Obligations.GetbytesrFillsBackward : Prop :=
  ∀ (s : State) (n : BitVec 16),
    encode (.getbytesr n) = 0x80000000 ||| n.setWidth 32 ∧
    (s.mode = .bit → FailsPrecisely .invalidMode s (exec (.getbytesr n) s)) ∧
    (s.mode = .byte → s.rd ≤ s.wr → s.wr < s.rd + n.toNat →
      FailsWithRdUpTo s.wr .bufferFault s (exec (.getbytesr n) s)) ∧
    (s.mode = .byte → s.rd + n.toNat ≤ s.wr →
      exec (.getbytesr n) s =
        .next { s with
          rd := s.rd + n.toNat,
          rsp := okResponse n.toNat ((List.range n.toNat).map (fun i => s.byteAt (s.rd + (n.toNat - 1 - i)))) }) ∧
    (n.toNat ≤ 1 → exec (.getbytesr n) s = exec (.getbytes n) s)

/-- R94: `GETBYTESX xf, n`: with `NONE` filled back to front; else every byte transformed, front to back; an
unrecognised transformation is `InvalidArgumentError` unless `n` is 0 (decision D19), ahead of the extent. -/
def Obligations.GetbytesxForms : Prop :=
  ∀ (s : State) (xf : XfField) (n : BitVec 16),
    encode (.getbytesx xf n) = 0x90000000 ||| (xf.code.setWidth 32 <<< 18) ||| n.setWidth 32 ∧
    (s.mode = .bit → FailsPrecisely .invalidMode s (exec (.getbytesx xf n) s)) ∧
    (∀ c, xf = .unrecognised c → s.mode = .byte → s.rd ≤ s.wr → 0 < n.toNat →
      FailsWithRdUpTo (min (s.rd + 1) s.wr) .invalidArgument s (exec (.getbytesx xf n) s)) ∧
    (s.mode = .byte → n = 0 → exec (.getbytesx xf n) s = .next { s with rsp := okResponse 0 [] }) ∧
    (∀ x, xf = .known x → s.mode = .byte → s.rd ≤ s.wr → s.wr < s.rd + n.toNat →
      FailsWithRdUpTo s.wr .bufferFault s (exec (.getbytesx xf n) s)) ∧
    (xf = .known .none → exec (.getbytesx xf n) s = exec (.getbytesr n) s) ∧
    (∀ x, xf = .known x → x ≠ .none → s.mode = .byte → s.rd + n.toNat ≤ s.wr →
      exec (.getbytesx xf n) s =
        .next { s with
          rd := s.rd + n.toNat,
          rsp := okResponse n.toNat ((s.streamBytes n.toNat).map (transformByte x)) })

/-- R95: `GETBYTESRX xf, n`: slot `i` holds stream byte `n - 1 - i` transformed, for every recognised transformation;
the errors are those of `GETBYTESX`; with `NONE` the three reverse reads are one. -/
def Obligations.GetbytesrxForms : Prop :=
  ∀ (s : State) (xf : XfField) (n : BitVec 16),
    encode (.getbytesrx xf n) = 0xA0000000 ||| (xf.code.setWidth 32 <<< 18) ||| n.setWidth 32 ∧
    (s.mode = .bit → FailsPrecisely .invalidMode s (exec (.getbytesrx xf n) s)) ∧
    (∀ c, xf = .unrecognised c → s.mode = .byte → s.rd ≤ s.wr → 0 < n.toNat →
      FailsWithRdUpTo (min (s.rd + 1) s.wr) .invalidArgument s (exec (.getbytesrx xf n) s)) ∧
    (s.mode = .byte → n = 0 → exec (.getbytesrx xf n) s = .next { s with rsp := okResponse 0 [] }) ∧
    (∀ x, xf = .known x → s.mode = .byte → s.rd ≤ s.wr → s.wr < s.rd + n.toNat →
      FailsWithRdUpTo s.wr .bufferFault s (exec (.getbytesrx xf n) s)) ∧
    (∀ x, xf = .known x → s.mode = .byte → s.rd + n.toNat ≤ s.wr →
      exec (.getbytesrx xf n) s =
        .next { s with
          rd := s.rd + n.toNat,
          rsp := okResponse n.toNat
            ((List.range n.toNat).map (fun i => transformByte x (s.byteAt (s.rd + (n.toNat - 1 - i))))) }) ∧
    (xf = .known .none → exec (.getbytesrx xf n) s = exec (.getbytesr n) s ∧
      exec (.getbytesrx xf n) s = exec (.getbytesx xf n) s)

/-- R97: `GETSTR`: the bytes before the first zero, in stream order, the zero consumed and not stored; `BufferFault`
when no readable byte is zero; the host's text has one character for each byte. -/
def Obligations.GetstrReadsToTheTerminator : Prop :=
  encode .getstr = 0xB0000000 ∧
  (∀ s : State, s.mode = .bit → FailsPrecisely .invalidMode s (exec .getstr s)) ∧
  (∀ s : State, s.mode = .byte → s.rd ≤ s.wr → (∀ i, s.rd ≤ i → i < s.wr → s.byteAt i ≠ 0) →
    FailsWithRdUpTo s.wr .bufferFault s (exec .getstr s)) ∧
  (∀ (s : State) (l : Nat), s.mode = .byte → s.TextLength l →
    exec .getstr s = .next { s with rd := s.rd + l + 1, rsp := okResponse l (s.streamBytes l) }) ∧
  (∀ (s t : State) (l : Nat) (r : Response), s.mode = .byte → s.TextLength l → exec .getstr s = .next t →
    t.rsp = some r → r.text.length = l ∧ ∀ i < l, r.text[i]? = some (Config.charMap (s.byteAt (s.rd + i))))

/-- R98: `GETLEN` answers `CAP - WR` and changes nothing; in Bit mode it is `InvalidModeError`; the result is a count
of at most `2^AW - 1` where R25.1 holds. -/
def Obligations.GetlenAnswersWritable : Prop :=
  encode .getlen = 0xC0000000 ∧
  (∀ s : State, s.mode = .byte → exec .getlen s = .next { s with rsp := okResponse ((s.cap : Int) - s.wr) [] }) ∧
  (∀ s : State, s.mode = .bit → FailsPrecisely .invalidMode s (exec .getlen s)) ∧
  (∀ s : State, s.extentsOk → 0 ≤ s.writable ∧ s.writable < 2 ^ Config.addrWidth) ∧
  (∀ s : State, s.wr = s.cap → s.mode = .byte → exec .getlen s = .next { s with rsp := okResponse 0 [] })

/-- R99: `GETRLEN` answers `WR - RD` and changes nothing; in Bit mode it is `InvalidModeError`; it is 0 when `RD = WR`;
after a command that ended OK in Byte mode with `RD` advanced by `k` it answers `k` less than it would have before. -/
def Obligations.GetrlenAnswersReadable : Prop :=
  encode .getrlen = 0xD0000000 ∧
  (∀ s : State, s.mode = .byte → exec .getrlen s = .next { s with rsp := okResponse ((s.wr : Int) - s.rd) [] }) ∧
  (∀ s : State, s.mode = .bit → FailsPrecisely .invalidMode s (exec .getrlen s)) ∧
  (∀ s : State, s.rd = s.wr → s.mode = .byte → exec .getrlen s = .next { s with rsp := okResponse 0 [] }) ∧
  (∀ (i : Instr) (s t : State) (k : Nat), exec i s = .next t → Answers .ok (exec i s) → t.mode = .byte →
    t.rd = s.rd + k → exec .getrlen t = .next { t with rsp := okResponse ((s.wr : Int) - s.rd - k) [] })

-- Errors ------------------------------------------------------------------------------------------------------

/-- R63, R102: a command in the other mode is `InvalidModeError` and changes nothing; no command raises it in a mode it
works in, and `SWBIT` and `SWBYTE` never do. -/
def Obligations.WrongModeIsPrecise : Prop :=
  (∀ (i : Instr) (s : State), WrongMode i s → FailsPrecisely .invalidMode s (exec i s)) ∧
  (∀ (i : Instr) (s : State), ¬ WrongMode i s → ¬ Answers (.error .invalidMode) (exec i s)) ∧
  (∀ s : State, ¬ WrongMode .swbit s ∧ ¬ WrongMode .swbyte s)

/-- R104, R105: `BufferFault` is answered exactly when the mode and the arguments pass and a byte at or beyond `WR` is
needed; then in Byte mode `RD` is in `RD0 .. WR`, in Bit mode `BITCUR` is in `BITCUR0 .. 8*WR`, and all else is as
before. The two premises are R25's. -/
def Obligations.BufferFaultExactlyWhenShort : Prop :=
  ∀ (i : Instr) (s : State), s.rd ≤ s.wr → s.bitcur ≤ 8 * s.wr →
    (Answers (.error .bufferFault) (exec i s) ↔ ¬ WrongMode i s ∧ badArguments i = false ∧ ShortOfBytes i s) ∧
    (Answers (.error .bufferFault) (exec i s) → s.mode = .byte →
      FailsWithRdUpTo s.wr .bufferFault s (exec i s)) ∧
    (Answers (.error .bufferFault) (exec i s) → s.mode = .bit →
      FailsWithBitcurUpTo (8 * s.wr) .bufferFault s (exec i s))

/-- R107: exactly one status is reported, chosen in the order illegal encoding, mode, arguments, extent, OK. Each case
says that the command answers, so every command ends (R115). The premise is R25's. -/
def Obligations.ErrorPriority : Prop :=
  (∀ (w : CmdWord) (why : Illegal) (s : State), decode w = .illegal why →
    Answers (.error .invalidArgument) (runWord w s)) ∧
  (∀ (i : Instr) (s : State), s.rd ≤ s.wr →
    (WrongMode i s → Answers (.error .invalidMode) (exec i s)) ∧
    (¬ WrongMode i s → badArguments i = true → Answers (.error .invalidArgument) (exec i s)) ∧
    (¬ WrongMode i s → badArguments i = false → ShortOfBytes i s → Answers (.error .bufferFault) (exec i s)) ∧
    (¬ WrongMode i s → badArguments i = false → ¬ ShortOfBytes i s → Answers .ok (exec i s)))

/-- The errors each command can raise (R106). -/
def canRaise : Instr → List ErrorKind
  | .swbit | .swbyte => []
  | .getbits _ | .getu _ _ _ | .gets _ _ _ | .getbytesx _ _ | .getbytesrx _ _ =>
    [.invalidMode, .invalidArgument, .bufferFault]
  | .getsmart | .getbytes _ | .getbytesr _ | .getstr => [.invalidMode, .bufferFault]
  | .getlen | .getrlen => [.invalidMode]

/-- R106: no command raises an error the matrix does not give it. -/
def Obligations.ErrorMatrix : Prop :=
  ∀ (i : Instr) (s : State) (e : ErrorKind), Answers (.error e) (exec i s) → e ∈ canRaise i

/-- The draws of R81 and R105 leave out no value of their range (log entry 5). -/
def Obligations.EveryDrawValueIsAdmitted : Prop :=
  ∀ lo hi v : Nat, lo ≤ v → v ≤ hi →
    (∃ k, drawFrom k lo hi = v) ∧ ∀ k, lo ≤ drawFrom k lo hi ∧ drawFrom k lo hi ≤ hi

-- The whole machine -------------------------------------------------------------------------------------------

/-- R34: whatever word is issued, `MEM`, `WR` and `CAP` stay, so every peek answers what it answered before. -/
def Obligations.UnitNeverWritesTheBuffer : Prop :=
  ∀ (w : CmdWord) (s t : State), runWord w s = .next t →
    t.wr = s.wr ∧ t.cap = s.cap ∧ (∀ a, t.byteAt a = s.byteAt a) ∧ ∀ a, t.peek a = s.peek a

/-- The frame of every command, whether it succeeds or fails: the host's inputs and every byte of the buffer stay; `RD`
moves only under `SWBYTE` and the consuming commands, `BITCUR` only under `SWBIT` and `GETBITS`, `MODE` only under the
switches (R15's "written by" column); a command that answers OK takes no free value. -/
def Obligations.CommandFrame : Prop :=
  ∀ (i : Instr) (s t : State), exec i s = .next t →
    t.inputs = s.inputs ∧ (∀ a, t.byteAt a = s.byteAt a) ∧ t.wr = s.wr ∧ t.cap = s.cap ∧
    ((i = .swbit ∨ needsBitMode i = true ∨ i = .getlen ∨ i = .getrlen) → t.rd = s.rd) ∧
    ((i ≠ .swbit ∧ needsBitMode i = false) → t.bitcur = s.bitcur) ∧
    ((i ≠ .swbit ∧ i ≠ .swbyte) → t.mode = s.mode) ∧
    (Answers .ok (exec i s) → t.draws = s.draws)

/-- R21: in Byte mode no command but `SWBIT` reads or writes `BITCUR`, and `SWBIT` does not read it; in Bit mode no
command but `SWBYTE` reads or writes `RD`, and `SWBYTE` does not read it; the stale `RD` lags by
`ceil((BITCUR - 8*RD) / 8)`. -/
def Obligations.StaleCursorIsNotObserved : Prop :=
  (∀ (i : Instr) (s : State) (c : Nat), s.mode = .byte → i ≠ .swbit →
    exec i { s with bitcur := c } = mapNext (fun t => { t with bitcur := c }) (exec i s) ∧
    ∀ t, exec i s = .next t → t.bitcur = s.bitcur) ∧
  (∀ (s : State) (c : Nat), s.mode = .byte → exec .swbit { s with bitcur := c } = exec .swbit s) ∧
  (∀ (i : Instr) (s : State) (r : Nat), s.mode = .bit → i ≠ .swbyte →
    exec i { s with rd := r } = mapNext (fun t => { t with rd := r }) (exec i s) ∧
    ∀ t, exec i s = .next t → t.rd = s.rd) ∧
  (∀ (s : State) (r : Nat), s.mode = .bit → exec .swbyte { s with rd := r } = exec .swbyte s) ∧
  (∀ s t : State, s.mode = .bit → 8 * s.rd ≤ s.bitcur → exec .swbyte s = .next t →
    t.rd = s.rd + (s.bitcur - 8 * s.rd + 7) / 8)

/-- R14, R23: no command's behaviour depends on the response of an earlier one, or on what the host will do later. -/
def Obligations.EarlierResponsesAreNeverRead : Prop :=
  ∀ (i : Instr) (s : State),
    (∀ r : Option Response, exec i { s with rsp := r } = exec i s) ∧
    (∀ l : List Input, exec i { s with inputs := l } = mapNext (fun t => { t with inputs := l }) (exec i s))

/-- R41, R42: no command reads a byte below the authoritative cursor's byte or at or beyond `WR`. With other contents
there, a command does what it did. -/
def Obligations.OnlyReadableBytesMatter : Prop :=
  ∀ (i : Instr) (s : State) (m : Memory),
    (∀ a, (if s.mode = .byte then s.rd else s.bitcur / 8) ≤ a → a < s.wr → m.read a = s.byteAt a) →
    exec i { s with mem := m } = mapNext (fun t => { t with mem := m }) (exec i s)

/-- R41: the authoritative cursor never moves back and never passes the readable data, whether the command succeeds or
fails; where a switch hands over, the new authoritative cursor is not behind the old one and not past the readable data.
The premise is R25's. -/
def Obligations.CursorsMoveForward : Prop :=
  ∀ (i : Instr) (s t : State), s.Inv → exec i s = .next t →
    (s.mode = .byte → s.rd ≤ t.rd ∧ t.rd ≤ t.wr) ∧
    (s.mode = .bit → s.bitcur ≤ t.bitcur ∧ t.bitcur ≤ 8 * t.wr) ∧
    (s.mode = .byte → i = .swbit → 8 * s.rd ≤ t.bitcur ∧ t.bitcur ≤ 8 * t.wr) ∧
    (s.mode = .bit → i = .swbyte → s.bitcur ≤ 8 * t.rd ∧ t.rd ≤ t.wr)

/-- R25, and after failing commands too: every step keeps the invariant. -/
def Obligations.StepKeepsTheInvariant : Prop :=
  ∀ s t : State, s.Inv → step s = .next t → t.Inv

/-- The state right after reset meets the invariant (its buffer is the model's choice, log entry 2). -/
def Obligations.ResetMeetsTheInvariant : Prop := State.reset.Inv

/-- R9, R12: where the invariant holds, the cursors and extents fit `AW` bits and `BITCUR` fits `AW + 3`. -/
def Obligations.InvariantBoundsTheWidths : Prop :=
  ∀ s : State, s.Inv →
    s.rd < 2 ^ Config.addrWidth ∧ s.wr < 2 ^ Config.addrWidth ∧ s.cap < 2 ^ Config.addrWidth ∧
    s.bitcur < 2 ^ (Config.addrWidth + 3)
end

