-- ==== Sys2Proof/Laws/Decode.lean ====
section
/-! SUPPORT. A word and its fields are the same thing said twice, and the selectors read back from their codes. -/

namespace Sys2Proof

/-- The fields of a word built from fields. -/
@[simp] theorem splitWord_joinWord (f : WordFields) : splitWord (joinWord f) = f := by
  rcases f with ⟨op, ty, ord, xf, rsv, imm⟩
  simp only [splitWord, joinWord, WordFields.mk.injEq]
  refine ⟨?_, ?_, ?_, ?_, ?_, ?_⟩ <;>
  · apply BitVec.eq_of_getLsbD_eq
    intro i hi
    interval_cases i <;> simp

/-- A word built from its own fields. -/
@[simp] theorem joinWord_splitWord (w : CmdWord) : joinWord (splitWord w) = w := by
  simp only [splitWord, joinWord]
  apply BitVec.eq_of_getLsbD_eq
  intro i hi
  interval_cases i <;> simp

/-- Decoding an encoded command reads its fields. -/
theorem decode_encode_fields (i : Instr) : decode (encode i) = decodeFields i.fields := by
  rw [decode, encode, splitWord_joinWord]

/-- An operation read from its code. -/
@[simp] theorem Op.ofCode_code (o : Op) : Op.ofCode o.code = some o := by cases o <;> rfl

/-- A code that reads as an operation is that operation's. -/
theorem Op.code_of_ofCode (c : BitVec 4) (o : Op) (h : Op.ofCode c = some o) : o.code = c := by
  revert c o
  decide +revert

/-- A well-formed `TYPE` operand read from its bits. -/
theorem TypeField.ofCode_code (t : TypeField) (h : t.wf = true) : TypeField.ofCode t.code = t := by
  cases t with
  | known t => cases t <;> rfl
  | unrecognised c => revert c; decide

/-- A well-formed `ORD` operand read from its bits. -/
theorem OrdField.ofCode_code (o : OrdField) (h : o.wf = true) : OrdField.ofCode o.code = o := by
  cases o with
  | known o => cases o <;> rfl
  | unrecognised c => revert c; decide

/-- A well-formed `XF` operand read from its bits. -/
theorem XfField.ofCode_code (x : XfField) (h : x.wf = true) : XfField.ofCode x.code = x := by
  cases x with
  | known x => cases x <;> rfl
  | unrecognised c => revert c; decide

/-- The bits of a `TYPE` operand that was read, and that it is well formed. -/
theorem TypeField.code_ofCode (c : BitVec 4) : (TypeField.ofCode c).code = c ∧ (TypeField.ofCode c).wf = true := by
  revert c; decide

/-- The bits of an `ORD` operand that was read, and that it is well formed. -/
theorem OrdField.code_ofCode (c : BitVec 3) : (OrdField.ofCode c).code = c ∧ (OrdField.ofCode c).wf = true := by
  revert c; decide

/-- The bits of an `XF` operand that was read, and that it is well formed. -/
theorem XfField.code_ofCode (c : BitVec 3) : (XfField.ofCode c).code = c ∧ (XfField.ofCode c).wf = true := by
  revert c; decide

/-- What decoding can do: a word is illegal, or its reserved bits are 0, its unused fields are 0, and the command is
made of its fields. -/
theorem decodeFields_cases (f : WordFields) :
    (∃ why, decodeFields f = .illegal why) ∨
    ∃ o, o.code = f.op ∧ f.rsv = 0 ∧ unusedFieldsZero o f = true ∧ decodeFields f = .command (buildInstr o f) := by
  unfold decodeFields
  split
  · exact .inl ⟨_, rfl⟩
  · rename_i o ho
    split
    · exact .inl ⟨_, rfl⟩
    · split
      · rename_i hr hu
        exact .inr ⟨o, Op.code_of_ofCode _ _ ho, by simpa using hr, hu, rfl⟩
      · exact .inl ⟨_, rfl⟩

end Sys2Proof
end

