-- ==== Sys2Proof/Laws/State.lean ====
section
/-! SUPPORT. One lemma for each field under each named update of `State` (`Ops.lean`), and for the reads that go through
`MEM` and `WR` alone. -/

namespace Sys2Proof.Machine

variable (s : State)

@[simp] theorem State.setMode_mode (m : Mode) : (s.setMode m).mode = m := rfl
@[simp] theorem State.setMode_bitcur (m : Mode) : (s.setMode m).bitcur = s.bitcur := rfl
@[simp] theorem State.setMode_rd (m : Mode) : (s.setMode m).rd = s.rd := rfl
@[simp] theorem State.setMode_wr (m : Mode) : (s.setMode m).wr = s.wr := rfl
@[simp] theorem State.setMode_cap (m : Mode) : (s.setMode m).cap = s.cap := rfl
@[simp] theorem State.setMode_mem (m : Mode) : (s.setMode m).mem = s.mem := rfl
@[simp] theorem State.setMode_rsp (m : Mode) : (s.setMode m).rsp = s.rsp := rfl
@[simp] theorem State.setMode_inputs (m : Mode) : (s.setMode m).inputs = s.inputs := rfl
@[simp] theorem State.setMode_draws (m : Mode) : (s.setMode m).draws = s.draws := rfl

@[simp] theorem State.setBitcur_mode (c : Nat) : (s.setBitcur c).mode = s.mode := rfl
@[simp] theorem State.setBitcur_bitcur (c : Nat) : (s.setBitcur c).bitcur = c := rfl
@[simp] theorem State.setBitcur_rd (c : Nat) : (s.setBitcur c).rd = s.rd := rfl
@[simp] theorem State.setBitcur_wr (c : Nat) : (s.setBitcur c).wr = s.wr := rfl
@[simp] theorem State.setBitcur_cap (c : Nat) : (s.setBitcur c).cap = s.cap := rfl
@[simp] theorem State.setBitcur_mem (c : Nat) : (s.setBitcur c).mem = s.mem := rfl
@[simp] theorem State.setBitcur_rsp (c : Nat) : (s.setBitcur c).rsp = s.rsp := rfl
@[simp] theorem State.setBitcur_inputs (c : Nat) : (s.setBitcur c).inputs = s.inputs := rfl
@[simp] theorem State.setBitcur_draws (c : Nat) : (s.setBitcur c).draws = s.draws := rfl

@[simp] theorem State.setRd_mode (r : Nat) : (s.setRd r).mode = s.mode := rfl
@[simp] theorem State.setRd_bitcur (r : Nat) : (s.setRd r).bitcur = s.bitcur := rfl
@[simp] theorem State.setRd_rd (r : Nat) : (s.setRd r).rd = r := rfl
@[simp] theorem State.setRd_wr (r : Nat) : (s.setRd r).wr = s.wr := rfl
@[simp] theorem State.setRd_cap (r : Nat) : (s.setRd r).cap = s.cap := rfl
@[simp] theorem State.setRd_mem (r : Nat) : (s.setRd r).mem = s.mem := rfl
@[simp] theorem State.setRd_rsp (r : Nat) : (s.setRd r).rsp = s.rsp := rfl
@[simp] theorem State.setRd_inputs (r : Nat) : (s.setRd r).inputs = s.inputs := rfl
@[simp] theorem State.setRd_draws (r : Nat) : (s.setRd r).draws = s.draws := rfl

@[simp] theorem State.setRsp_mode (r : Option Response) : (s.setRsp r).mode = s.mode := rfl
@[simp] theorem State.setRsp_bitcur (r : Option Response) : (s.setRsp r).bitcur = s.bitcur := rfl
@[simp] theorem State.setRsp_rd (r : Option Response) : (s.setRsp r).rd = s.rd := rfl
@[simp] theorem State.setRsp_wr (r : Option Response) : (s.setRsp r).wr = s.wr := rfl
@[simp] theorem State.setRsp_cap (r : Option Response) : (s.setRsp r).cap = s.cap := rfl
@[simp] theorem State.setRsp_mem (r : Option Response) : (s.setRsp r).mem = s.mem := rfl
@[simp] theorem State.setRsp_rsp (r : Option Response) : (s.setRsp r).rsp = r := rfl
@[simp] theorem State.setRsp_inputs (r : Option Response) : (s.setRsp r).inputs = s.inputs := rfl
@[simp] theorem State.setRsp_draws (r : Option Response) : (s.setRsp r).draws = s.draws := rfl

@[simp] theorem State.setInputs_mode (l : List Input) : (s.setInputs l).mode = s.mode := rfl
@[simp] theorem State.setInputs_bitcur (l : List Input) : (s.setInputs l).bitcur = s.bitcur := rfl
@[simp] theorem State.setInputs_rd (l : List Input) : (s.setInputs l).rd = s.rd := rfl
@[simp] theorem State.setInputs_wr (l : List Input) : (s.setInputs l).wr = s.wr := rfl
@[simp] theorem State.setInputs_cap (l : List Input) : (s.setInputs l).cap = s.cap := rfl
@[simp] theorem State.setInputs_mem (l : List Input) : (s.setInputs l).mem = s.mem := rfl
@[simp] theorem State.setInputs_rsp (l : List Input) : (s.setInputs l).rsp = s.rsp := rfl
@[simp] theorem State.setInputs_inputs (l : List Input) : (s.setInputs l).inputs = l := rfl
@[simp] theorem State.setInputs_draws (l : List Input) : (s.setInputs l).draws = s.draws := rfl

@[simp] theorem State.nextDraw_mode : (s.nextDraw).mode = s.mode := rfl
@[simp] theorem State.nextDraw_bitcur : (s.nextDraw).bitcur = s.bitcur := rfl
@[simp] theorem State.nextDraw_rd : (s.nextDraw).rd = s.rd := rfl
@[simp] theorem State.nextDraw_wr : (s.nextDraw).wr = s.wr := rfl
@[simp] theorem State.nextDraw_cap : (s.nextDraw).cap = s.cap := rfl
@[simp] theorem State.nextDraw_mem : (s.nextDraw).mem = s.mem := rfl
@[simp] theorem State.nextDraw_rsp : (s.nextDraw).rsp = s.rsp := rfl
@[simp] theorem State.nextDraw_inputs : (s.nextDraw).inputs = s.inputs := rfl
@[simp] theorem State.nextDraw_draws : (s.nextDraw).draws = s.draws + 1 := rfl

@[simp] theorem State.setBuffer_mode (b : BufferImage) : (s.setBuffer b).mode = s.mode := rfl
@[simp] theorem State.setBuffer_bitcur (b : BufferImage) : (s.setBuffer b).bitcur = s.bitcur := rfl
@[simp] theorem State.setBuffer_rd (b : BufferImage) : (s.setBuffer b).rd = b.rd := rfl
@[simp] theorem State.setBuffer_wr (b : BufferImage) : (s.setBuffer b).wr = b.wr := rfl
@[simp] theorem State.setBuffer_cap (b : BufferImage) : (s.setBuffer b).cap = b.bytes.length := rfl
@[simp] theorem State.setBuffer_mem (b : BufferImage) : (s.setBuffer b).mem = Memory.place 0 b.bytes := rfl
@[simp] theorem State.setBuffer_rsp (b : BufferImage) : (s.setBuffer b).rsp = s.rsp := rfl
@[simp] theorem State.setBuffer_inputs (b : BufferImage) : (s.setBuffer b).inputs = s.inputs := rfl
@[simp] theorem State.setBuffer_draws (b : BufferImage) : (s.setBuffer b).draws = s.draws := rfl

@[simp] theorem State.setMode_byteAt (m : Mode) (i : Nat) : (s.setMode m).byteAt i = s.byteAt i := rfl
@[simp] theorem State.setMode_peek (m : Mode) (i : Nat) : (s.setMode m).peek i = s.peek i := rfl
@[simp] theorem State.setBitcur_byteAt (c : Nat) (i : Nat) : (s.setBitcur c).byteAt i = s.byteAt i := rfl
@[simp] theorem State.setBitcur_peek (c : Nat) (i : Nat) : (s.setBitcur c).peek i = s.peek i := rfl
@[simp] theorem State.setRd_byteAt (r : Nat) (i : Nat) : (s.setRd r).byteAt i = s.byteAt i := rfl
@[simp] theorem State.setRd_peek (r : Nat) (i : Nat) : (s.setRd r).peek i = s.peek i := rfl
@[simp] theorem State.setRsp_byteAt (r : Option Response) (i : Nat) : (s.setRsp r).byteAt i = s.byteAt i := rfl
@[simp] theorem State.setRsp_peek (r : Option Response) (i : Nat) : (s.setRsp r).peek i = s.peek i := rfl
@[simp] theorem State.setInputs_byteAt (l : List Input) (i : Nat) : (s.setInputs l).byteAt i = s.byteAt i := rfl
@[simp] theorem State.setInputs_peek (l : List Input) (i : Nat) : (s.setInputs l).peek i = s.peek i := rfl
@[simp] theorem State.nextDraw_byteAt (i : Nat) : (s.nextDraw).byteAt i = s.byteAt i := rfl
@[simp] theorem State.nextDraw_peek (i : Nat) : (s.nextDraw).peek i = s.peek i := rfl

end Sys2Proof.Machine
end

