-- ==== Sys2Proof/Laws/Memory.lean ====
section
/-! SUPPORT. The buffer's contents: placing bytes keeps the canonical form and reads back, and canonical contents that
read alike are equal. -/

namespace Sys2Proof.Machine

@[simp] theorem Memory.read_nil (i : Nat) : Memory.read [] i = Memory.blank := rfl

theorem Memory.read_cons (c : Host.Cell) (m : Memory) (i : Nat) :
    Memory.read (c :: m) i = if c.1 = i then c.2 else Memory.read m i := rfl

/-- An index no entry has reads as an unlisted one. -/
theorem Memory.read_unlisted (m : Memory) (i : Nat) (h : ∀ c ∈ m, c.1 ≠ i) : m.read i = Memory.blank := by
  induction m with
  | nil => rfl
  | cons c m ih =>
    rw [Memory.read_cons, if_neg (h c (by simp))]
    exact ih fun d hd => h d (by simp [hd])

/-- Placed bytes lie at or above the base. -/
theorem Memory.place_index (base : Nat) (bs : List Byte) : ∀ c ∈ Memory.place base bs, base ≤ c.1 := by
  induction bs generalizing base with
  | nil => simp [Memory.place]
  | cons b bs ih =>
    intro c hc
    unfold Memory.place at hc
    split at hc
    · exact (Nat.le_succ base).trans (ih (base + 1) c hc)
    · rcases List.mem_cons.1 hc with rfl | hc
      · exact le_refl _
      · exact (Nat.le_succ base).trans (ih (base + 1) c hc)

/-- Placing bytes gives the canonical form. -/
theorem Memory.place_wf (base : Nat) (bs : List Byte) : (Memory.place base bs).wf := by
  induction bs generalizing base with
  | nil => exact ⟨List.Pairwise.nil, by simp [Memory.place]⟩
  | cons b bs ih =>
    unfold Memory.place
    split
    · exact ih (base + 1)
    · rename_i hb
      refine ⟨List.Pairwise.cons (fun c hc => ?_) (ih (base + 1)).1, fun c hc => ?_⟩
      · exact Memory.place_index (base + 1) bs c hc
      · rcases List.mem_cons.1 hc with rfl | hc
        · exact hb
        · exact (ih (base + 1)).2 c hc

/-- A placed byte reads back. -/
theorem Memory.read_place (base : Nat) (bs : List Byte) (i : Nat) :
    (Memory.place base bs).read (base + i) = bs.getD i Memory.blank := by
  induction bs generalizing base i with
  | nil => simp [Memory.place]
  | cons b bs ih =>
    unfold Memory.place
    split
    · rename_i hb
      cases i with
      | zero =>
        rw [Nat.add_zero, Memory.read_unlisted _ _ fun c hc => ?_]
        · simp [hb]
        · have := Memory.place_index (base + 1) bs c hc
          omega
      | succ i => simpa [Nat.add_assoc, Nat.add_comm 1 i] using ih (base + 1) i
    · cases i with
      | zero => simp [Memory.read_cons]
      | succ i =>
        rw [Memory.read_cons, if_neg (by simp)]
        simpa [Nat.add_assoc, Nat.add_comm 1 i] using ih (base + 1) i

/-- In canonical contents every index below the first entry's is unlisted. -/
theorem Memory.wf_read_below (c : Host.Cell) (m : Memory) (h : Memory.wf (c :: m)) (i : Nat) (hi : i < c.1) :
    Memory.read (c :: m) i = Memory.blank := by
  refine Memory.read_unlisted _ _ fun d hd => ?_
  rcases List.mem_cons.1 hd with rfl | hd
  · omega
  · have := (List.pairwise_cons.1 h.1).1 d hd
    omega

theorem Memory.wf_tail (c : Host.Cell) (m : Memory) (h : Memory.wf (c :: m)) : Memory.wf m :=
  ⟨(List.pairwise_cons.1 h.1).2, fun d hd => h.2 d (by simp [hd])⟩

/-- Equal contents are equal data. -/
theorem Memory.wf_ext (m n : Memory) (hm : m.wf) (hn : n.wf) (h : ∀ i, m.read i = n.read i) : m = n := by
  induction m generalizing n with
  | nil =>
    cases n with
    | nil => rfl
    | cons d n =>
      have := h d.1
      rw [Memory.read_nil, Memory.read_cons, if_pos rfl] at this
      exact absurd this.symm (hn.2 d (by simp))
  | cons c m ih =>
    have hc : c.2 ≠ Memory.blank := hm.2 c (by simp)
    have h1 : Memory.read (c :: m) c.1 = c.2 := by rw [Memory.read_cons, if_pos rfl]
    cases n with
    | nil => exact absurd (h1.symm.trans (h c.1)) hc
    | cons d n =>
      have hd : d.2 ≠ Memory.blank := hn.2 d (by simp)
      have h2 : Memory.read (d :: n) d.1 = d.2 := by rw [Memory.read_cons, if_pos rfl]
      have key : c.1 = d.1 := by
        rcases Nat.lt_trichotomy c.1 d.1 with hlt | heq | hgt
        · exact absurd ((h1.symm.trans (h c.1)).trans (Memory.wf_read_below d n hn _ hlt)) hc
        · exact heq
        · exact absurd ((h2.symm.trans (h d.1).symm).trans (Memory.wf_read_below c m hm _ hgt)) hd
      have val : c.2 = d.2 := by
        have := h c.1
        rwa [h1, Memory.read_cons, if_pos key.symm] at this
      have rest : m = n := by
        refine ih n (Memory.wf_tail c m hm) (Memory.wf_tail d n hn) fun i => ?_
        by_cases hi : c.1 = i
        · have hm' : ∀ e ∈ m, e.1 ≠ i := fun e he => by
            have := (List.pairwise_cons.1 hm.1).1 e he
            omega
          have hn' : ∀ e ∈ n, e.1 ≠ i := fun e he => by
            have := (List.pairwise_cons.1 hn.1).1 e he
            omega
          rw [Memory.read_unlisted m i hm', Memory.read_unlisted n i hn']
        · have := h i
          rwa [Memory.read_cons, Memory.read_cons, if_neg hi, if_neg (key ▸ hi)] at this
      rw [rest, Prod.ext key val]

end Sys2Proof.Machine
end

