-- ==== Sys2Proof/Laws/Ops.lean ====
section
/-! SUPPORT. What each shared operation can do, said once: the draws, the `BUF` primitives, the response, the errors,
reset and binding. -/

namespace Sys2Proof.Machine

/-- A draw lies in its range. -/
theorem drawFrom_ge (k lo hi : Nat) : lo ≤ drawFrom k lo hi := Nat.le_add_right _ _

theorem drawFrom_le (k lo hi : Nat) (h : lo ≤ hi) : drawFrom k lo hi ≤ hi := by
  have := Nat.mod_lt k (show 0 < hi - lo + 1 by omega)
  unfold drawFrom
  omega

theorem State.drawIn_ge (s : State) (lo hi : Nat) : lo ≤ s.drawIn lo hi := drawFrom_ge _ _ _

theorem State.drawIn_le (s : State) (lo hi : Nat) (h : lo ≤ hi) : s.drawIn lo hi ≤ hi := drawFrom_le _ _ _ h

@[simp] theorem State.setBitcur_drawIn (s : State) (c lo hi : Nat) : (s.setBitcur c).drawIn lo hi = s.drawIn lo hi := rfl

@[simp] theorem State.setRd_drawIn (s : State) (r lo hi : Nat) : (s.setRd r).drawIn lo hi = s.drawIn lo hi := rfl

@[simp] theorem State.setRd_setRd (s : State) (r r' : Nat) : (s.setRd r).setRd r' = s.setRd r' := rfl

@[simp] theorem State.setRd_self (s : State) : s.setRd s.rd = s := rfl

/-- A peek below `WR` answers the byte. -/
theorem State.peek_of_lt (s : State) (i : Nat) (h : i < s.wr) : s.peek i = some (s.byteAt i) := if_pos h

/-- A peek at or beyond `WR` is refused. -/
theorem State.peek_of_ge (s : State) (i : Nat) (h : s.wr ≤ i) : s.peek i = none := if_neg (by omega)

/-- Consuming below `WR` answers the byte and advances `RD` by one. -/
theorem State.consume_of_lt (s : State) (h : s.rd < s.wr) : s.consume = some (s.byteAt s.rd, s.setRd (s.rd + 1)) :=
  if_pos h

/-- Consuming at or beyond `WR` is refused. -/
theorem State.consume_of_ge (s : State) (h : s.wr ≤ s.rd) : s.consume = none := if_neg (by omega)

/-- `n` bytes are consumed when they are readable: the bytes from `RD` on, in ascending order. -/
theorem State.consumeN_of_le (n : Nat) (s : State) (h : s.rd + n ≤ s.wr) :
    s.consumeN n = some ((List.range n).map (fun k => s.byteAt (s.rd + k)), s.setRd (s.rd + n)) := by
  induction n generalizing s with
  | zero => simp [State.consumeN]
  | succ n ih =>
    rw [State.consumeN, State.consume_of_lt s (by omega)]
    simp only [ih (s.setRd (s.rd + 1)) (by simp; omega), List.range_succ_eq_map, List.map_cons, List.map_map]
    simp [Function.comp_def, Nat.add_assoc, Nat.add_comm 1]

/-- Consuming is refused when fewer than `n` bytes are readable. -/
theorem State.consumeN_of_gt (n : Nat) (s : State) (hn : 0 < n) (h : s.wr < s.rd + n) : s.consumeN n = none := by
  induction n generalizing s with
  | zero => omega
  | succ n ih =>
    rw [State.consumeN]
    by_cases hlt : s.rd < s.wr
    · rw [State.consume_of_lt s hlt]
      simp only [ih (s.setRd (s.rd + 1)) (by omega) (by simp; omega)]
    · rw [State.consume_of_ge s (by omega)]

/-- What consuming can do: the bytes from `RD` on and `RD` advanced, or a refusal. -/
theorem State.consumeN_cases (n : Nat) (s : State) :
    (s.consumeN n = some ((List.range n).map (fun k => s.byteAt (s.rd + k)), s.setRd (s.rd + n)) ∧
      (n = 0 ∨ s.rd + n ≤ s.wr)) ∨ (s.consumeN n = none ∧ 0 < n ∧ s.wr < s.rd + n) := by
  rcases Nat.eq_zero_or_pos n with rfl | hn
  · exact .inl ⟨rfl, .inl rfl⟩
  · by_cases h : s.rd + n ≤ s.wr
    · exact .inl ⟨s.consumeN_of_le n h, .inr h⟩
    · exact .inr ⟨s.consumeN_of_gt n hn (by omega), hn, by omega⟩

/-- Peeks below `WR` answer the bytes in ascending order. -/
theorem State.peekN_of_le (n i : Nat) (s : State) (h : i + n ≤ s.wr) :
    s.peekN n i = some ((List.range n).map (fun k => s.byteAt (i + k))) := by
  induction n generalizing i with
  | zero => rfl
  | succ n ih =>
    rw [State.peekN, State.peek_of_lt s i (by omega)]
    simp only [ih (i + 1) (by omega), List.range_succ_eq_map, List.map_cons, List.map_map]
    simp [Function.comp_def, Nat.add_assoc, Nat.add_comm 1]

/-- A run of peeks is refused when its last one is. -/
theorem State.peekN_of_gt (n i : Nat) (s : State) (hn : 0 < n) (h : s.wr < i + n) : s.peekN n i = none := by
  induction n generalizing i with
  | zero => omega
  | succ n ih =>
    rw [State.peekN]
    by_cases hlt : i < s.wr
    · rw [State.peek_of_lt s i hlt]
      simp only [ih (i + 1) (by omega) (by omega)]
    · rw [State.peek_of_ge s i (by omega)]

/-- The text loop finds the first zero byte among the readable ones. -/
theorem State.consumeText_of_zero (fuel l : Nat) (s : State) (hl : l < fuel) (hr : s.rd + l < s.wr)
    (hz : s.byteAt (s.rd + l) = 0) (hn : ∀ k < l, s.byteAt (s.rd + k) ≠ 0) :
    s.consumeText fuel = some ((List.range l).map (fun k => s.byteAt (s.rd + k)), s.setRd (s.rd + l + 1)) := by
  induction fuel generalizing s l with
  | zero => omega
  | succ fuel ih =>
    rw [State.consumeText, State.consume_of_lt s (by omega)]
    cases l with
    | zero => simp_all
    | succ l =>
      have h0 : s.byteAt s.rd ≠ 0 := by simpa using hn 0 (by omega)
      simp only [if_neg h0]
      rw [ih l (s.setRd (s.rd + 1)) (by omega) (by simp; omega)
        (by simpa [Nat.add_assoc, Nat.add_comm 1] using hz)
        (fun k hk => by simpa [Nat.add_assoc, Nat.add_comm 1] using hn (k + 1) (by omega))]
      simp [List.range_succ_eq_map, Function.comp_def, Nat.add_assoc, Nat.add_comm 1]

/-- The text loop is refused when no readable byte is zero. -/
theorem State.consumeText_of_no_zero (fuel : Nat) (s : State) (h : ∀ i, s.rd ≤ i → i < s.wr → s.byteAt i ≠ 0) :
    s.consumeText fuel = none := by
  induction fuel generalizing s with
  | zero => rfl
  | succ fuel ih =>
    rw [State.consumeText]
    by_cases hlt : s.rd < s.wr
    · rw [State.consume_of_lt s hlt]
      simp only [if_neg (h s.rd (le_refl _) hlt), ih (s.setRd (s.rd + 1)) fun i h1 h2 => by
        simp at h1 h2 ⊢
        exact h i (by omega) h2]
    · rw [State.consume_of_ge s (by omega)]

/-- What the text loop can do: it finds the first zero byte at some distance, or there is none in its reach. -/
theorem State.consumeText_cases (s : State) :
    (∃ l, s.rd + l < s.wr ∧ s.byteAt (s.rd + l) = 0 ∧ (∀ k < l, s.byteAt (s.rd + k) ≠ 0) ∧
      s.consumeText (s.wr - s.rd) =
        some ((List.range l).map (fun k => s.byteAt (s.rd + k)), s.setRd (s.rd + l + 1))) ∨
    ((∀ i, s.rd ≤ i → i < s.wr → s.byteAt i ≠ 0) ∧ s.consumeText (s.wr - s.rd) = none) := by
  by_cases h : ∃ l, s.rd + l < s.wr ∧ s.byteAt (s.rd + l) = 0
  · classical
    refine .inl ⟨Nat.find h, (Nat.find_spec h).1, (Nat.find_spec h).2, fun k hk he => ?_, ?_⟩
    · exact Nat.find_min h hk ⟨by have := (Nat.find_spec h).1; omega, he⟩
    · refine State.consumeText_of_zero _ _ s ?_ (Nat.find_spec h).1 (Nat.find_spec h).2 fun k hk he => ?_
      · have := (Nat.find_spec h).1
        omega
      · exact Nat.find_min h hk ⟨by have := (Nat.find_spec h).1; omega, he⟩
  · have hz : ∀ i, s.rd ≤ i → i < s.wr → s.byteAt i ≠ 0 := fun i h1 h2 he =>
      h ⟨i - s.rd, by omega, by rwa [Nat.add_sub_cancel' h1]⟩
    exact .inr ⟨hz, State.consumeText_of_no_zero _ s hz⟩

/-- A mode check that passes runs the command. -/
@[simp] theorem requireMode_of_eq (m : Mode) (s : State) (body : StepResult) (h : s.mode = m) :
    requireMode m s body = body := if_pos h

/-- A mode check that fails is `InvalidModeError`. -/
@[simp] theorem requireMode_of_ne (m : Mode) (s : State) (body : StepResult) (h : s.mode ≠ m) :
    requireMode m s body = raise .invalidMode s := if_neg h

/-- A buffer of fewer than 32 bytes has an index width that holds it (log entry 7). -/
theorem capacity_of_lt (n : Nat) (h : n < 32) : n < 2 ^ Config.addrWidth :=
  lt_of_lt_of_le (show n < 2 ^ 5 from h) (Nat.pow_le_pow_right (by decide) (Nat.le_add_right 5 _))

/-- What a reset does, when it is not refused. -/
theorem resetUnit_next (s t : State) (h : resetUnit s = .next t) :
    s.rd ≤ s.wr ∧ s.wr ≤ s.cap ∧ t = { s with mode := .byte, bitcur := 0, rsp := none } := by
  unfold resetUnit at h
  split at h
  · rename_i hb
    refine ⟨hb.1, hb.2, ?_⟩
    injection h with h
    exact h.symm
  · cases h

/-- What a reset inside a command does, when it is not refused. -/
theorem abandonCommand_next (i : Instr) (s t : State) (h : abandonCommand i s = .next t) :
    s.wr ≤ s.cap ∧ t.rd ≤ s.wr ∧ s.rd ≤ t.rd ∧ (movesRd i s.mode = false → t.rd = s.rd) ∧
      ∃ d, t = { s with mode := .byte, bitcur := 0, rsp := none, rd := t.rd, draws := d } := by
  unfold abandonCommand at h
  split at h
  · rename_i hm
    obtain ⟨h1, h2, rfl⟩ := resetUnit_next _ _ h
    exact ⟨h2, h1, s.drawIn_ge _ _, fun hf => absurd hm (by simp [hf]), _, rfl⟩
  · obtain ⟨h1, h2, rfl⟩ := resetUnit_next _ _ h
    exact ⟨h2, h1, le_refl _, fun _ => rfl, _, rfl⟩

/-- What a binding does, when it is not refused. -/
theorem bindBuffer_next (b : BufferImage) (s t : State) (h : bindBuffer b s = .next t) :
    b.rd ≤ b.wr ∧ b.wr ≤ b.bytes.length ∧ b.bytes.length < 2 ^ Config.addrWidth ∧
      t = { s with mode := .byte, bitcur := 0, rsp := none, mem := Memory.place 0 b.bytes, rd := b.rd, wr := b.wr,
                   cap := b.bytes.length } := by
  unfold bindBuffer at h
  split at h
  · rename_i hc
    obtain ⟨h1, h2, rfl⟩ := resetUnit_next _ _ h
    exact ⟨h1, h2, hc, rfl⟩
  · cases h

end Sys2Proof.Machine
end

