-- ==== Sys2Proof/Laws/PerInstr.lean ====
section
/-! SUPPORT. One family of statements about every command as syntax: the word of a command matches the command's own
row of the opcode map (R55). -/

namespace Sys2Proof

/-- Equal masked words, bit by bit. -/
theorem MatchRow.holds_of_bits (r : MatchRow) (w : CmdWord)
    (h : ∀ k, k < 32 → (w.getLsbD k && r.mask.getLsbD k) = r.pattern.getLsbD k) : r.holds w = true := by
  rw [MatchRow.holds, beq_iff_eq]
  apply BitVec.eq_of_getLsbD_eq
  intro k hk
  rw [BitVec.getLsbD_and, h k hk]

end Sys2Proof

/-- The word of `i` under its row's mask is its row's pattern. -/
def Sys2Proof.Laws.MatchesRow.Statement (i : Sys2Proof.Instr) : Prop := i.op.row.holds (Sys2Proof.encode i) = true

namespace Sys2Proof.Laws.MatchesRow

theorem swbit : Statement .swbit := by unfold Statement; decide

theorem swbyte : Statement .swbyte := by unfold Statement; decide

theorem getbits (amount : BitVec 16) : Statement (.getbits amount) := by
  refine MatchRow.holds_of_bits _ _ fun k hk => ?_
  interval_cases k <;> simp [encode, joinWord, Instr.fields, Instr.op, Op.row, Op.code]

theorem getu (type : TypeField) (order : OrdField) (xf : XfField) : Statement (.getu type order xf) := by
  refine MatchRow.holds_of_bits _ _ fun k hk => ?_
  interval_cases k <;> simp [encode, joinWord, Instr.fields, Instr.op, Op.row, Op.code]

theorem gets (type : TypeField) (order : OrdField) (xf : XfField) : Statement (.gets type order xf) := by
  refine MatchRow.holds_of_bits _ _ fun k hk => ?_
  interval_cases k <;> simp [encode, joinWord, Instr.fields, Instr.op, Op.row, Op.code]

theorem getsmart : Statement .getsmart := by unfold Statement; decide

theorem getbytes (n : BitVec 16) : Statement (.getbytes n) := by
  refine MatchRow.holds_of_bits _ _ fun k hk => ?_
  interval_cases k <;> simp [encode, joinWord, Instr.fields, Instr.op, Op.row, Op.code]

theorem getbytesr (n : BitVec 16) : Statement (.getbytesr n) := by
  refine MatchRow.holds_of_bits _ _ fun k hk => ?_
  interval_cases k <;> simp [encode, joinWord, Instr.fields, Instr.op, Op.row, Op.code]

theorem getbytesx (xf : XfField) (n : BitVec 16) : Statement (.getbytesx xf n) := by
  refine MatchRow.holds_of_bits _ _ fun k hk => ?_
  interval_cases k <;> simp [encode, joinWord, Instr.fields, Instr.op, Op.row, Op.code]

theorem getbytesrx (xf : XfField) (n : BitVec 16) : Statement (.getbytesrx xf n) := by
  refine MatchRow.holds_of_bits _ _ fun k hk => ?_
  interval_cases k <;> simp [encode, joinWord, Instr.fields, Instr.op, Op.row, Op.code]

theorem getstr : Statement .getstr := by unfold Statement; decide

theorem getlen : Statement .getlen := by unfold Statement; decide

theorem getrlen : Statement .getrlen := by unfold Statement; decide

end Sys2Proof.Laws.MatchesRow
end

