-- ==== Sys2Proof/Tests/Slice0.lean ====
section
/-! SUPPORT. Small tests. Words, bytes and results are those of `95_test_vectors.md` (named S, M, B, F, V, A, T, L, I
there) or of the encoding tables of `30_encoding.md`; the witnesses show that the hypotheses of each obligation can be
met together. -/

namespace Sys2Proof.Tests

open Sys2Proof.Machine

/-- Byte mode, the bytes readable, nothing consumed. -/
def inByte (bytes : List Byte) (rd : Nat) : State :=
  { State.reset with mem := Memory.place 0 bytes, rd := rd, wr := bytes.length, cap := bytes.length }

/-- Bit mode, the bytes readable. -/
def inBit (bytes : List Byte) (c : Nat) : State :=
  { State.reset with
    mode := .bit, bitcur := c, mem := Memory.place 0 bytes, wr := bytes.length, cap := bytes.length }

/-- What a test looks at in a command that answered OK. -/
structure Answered where
  res : ResWord
  out : List Byte
  mode : Mode
  rd : Nat
  bitcur : Nat
  deriving DecidableEq, Repr

/-- The answer of a command that ended OK. -/
def answered (r : StepResult) : Option Answered :=
  match r with
  | .next t =>
    match t.rsp with
    | some ⟨.ok, res, out⟩ => some ⟨res, out, t.mode, t.rd, t.bitcur⟩
    | some ⟨.error _, _, _⟩ => none
    | none => none
  | .fault _ => none
  | .refused _ => none

/-- The error a command ended with, and the mode after it. -/
def failed (r : StepResult) : Option (ErrorKind × Mode) :=
  match r with
  | .next t =>
    match t.rsp with
    | some ⟨.error e, _, _⟩ => some (e, t.mode)
    | some ⟨.ok, _, _⟩ => none
    | none => none
  | .fault _ => none
  | .refused _ => none

-- Well-formedness: one ill-formed term for each check -------------------------------------------------------------

theorem test_wf_refuses_type : Instr.wf (.getu (.unrecognised 4) (.known .big) (.known .none)) = false := by decide

theorem test_wf_refuses_order : Instr.wf (.gets (.known .int) (.unrecognised 3) (.known .none)) = false := by decide

theorem test_wf_refuses_transformation :
    Instr.wf (.gets (.known .int) (.known .big) (.unrecognised 0)) = false ∧
    Instr.wf (.getbytesx (.unrecognised 1) 3) = false ∧
    Instr.wf (.getbytesrx (.unrecognised 2) 3) = false := by decide

theorem test_wf_admits : Instr.wf (.getu (.unrecognised 15) (.unrecognised 4) (.unrecognised 7)) = true := by decide

-- Decoding: words of R55 and of the test vectors -------------------------------------------------------------------

theorem test_decode_mode_control : decode 0x10000000 = .command .swbit ∧ decode 0x20000000 = .command .swbyte := by
  decide

theorem test_decode_getbits :
    decode 0x3000000B = .command (.getbits 11) ∧ decode 0x3000FFFF = .command (.getbits 65535) := by decide

theorem test_decode_getu :
    decode 0x44400000 = .command (.getu (.known .int) (.known .middle) (.known .none)) ∧
    decode 0x432C0000 = .command (.getu (.known .medium) (.known .little) (.known .negate)) ∧
    decode 0x48200000 = .command (.getu (.known .long) (.known .little) (.known .none)) ∧
    decode 0x44800000 = .command (.getu (.known .int) (.unrecognised 4) (.known .none)) ∧
    decode 0x40000000 = .command (.getu (.unrecognised 0) (.known .big) (.known .none)) := by decide

theorem test_decode_gets :
    decode 0x52240000 = .command (.gets (.known .short) (.known .little) (.known .add)) ∧
    decode 0x54600000 = .command (.gets (.known .int) (.known .inversedMiddle) (.known .none)) ∧
    decode 0x51080000 = .command (.gets (.known .byte) (.known .big) (.known .subtract)) := by decide

theorem test_decode_getsmart : decode 0x60000000 = .command .getsmart := by decide

theorem test_decode_arrays :
    decode 0x70000003 = .command (.getbytes 3) ∧ decode 0x80000001 = .command (.getbytesr 1) ∧
    decode 0x900C0003 = .command (.getbytesx (.known .negate) 3) ∧
    decode 0xA0140003 = .command (.getbytesrx (.unrecognised 5) 3) := by decide

theorem test_decode_text_and_length :
    decode 0xB0000000 = .command .getstr ∧ decode 0xC0000000 = .command .getlen ∧
    decode 0xD0000000 = .command .getrlen := by decide

/-- I1 to I12. -/
theorem test_decode_illegal :
    [0x00000000, 0xE0000000, 0xF0000000, 0xFFFFFFFF].map decode = List.replicate 4 (.illegal .reservedOp) ∧
    [0x30010004, 0x41010000].map decode = List.replicate 2 (.illegal .reservedBits) ∧
    [0x10000001, 0x20040000, 0x31000004, 0x41000001, 0x60000001, 0x70040003, 0x90200003, 0xB0000001, 0xC1000000,
      0xD0200000].map decode = List.replicate 10 (.illegal .unusedField) := by decide

theorem test_text :
    Instr.text (.getu (.known .int) (.known .inversedMiddle) (.known .none)) = "GETU INT, INVERSED_MIDDLE, NONE" := by
  decide

theorem test_pseudo_commands :
    encode Instr.getbit = 0x30000001 ∧ encode (.getuType (.known .byte)) = 0x41000000 ∧
    encode (.getsOrder (.known .int) (.known .middle)) = 0x54400000 := by decide

/-- The numbers of R101 and R11. -/
theorem test_codes :
    [Status.ok, .error .invalidMode, .error .invalidArgument, .error .bufferFault].map Status.code = [0, 1, 2, 3] ∧
    Mode.code .byte = 0 ∧ Mode.code .bit = 1 := by decide

-- Single commands --------------------------------------------------------------------------------------------------

/-- M2. -/
theorem test_swbit_loads : answered (exec .swbit (inByte [1, 2, 3, 4] 3)) = some ⟨0, [], .bit, 3, 24⟩ := by decide

/-- M3: `BITCUR` is not reloaded. -/
theorem test_swbit_again : answered (exec .swbit (inBit [1, 2, 3, 4] 25)) = some ⟨0, [], .bit, 0, 25⟩ := by decide

/-- S11: the byte cursor goes up, never down. -/
theorem test_swbyte_ceiling : answered (exec .swbyte (inBit [0xB5, 0x6C] 3)) = some ⟨0, [], .byte, 1, 3⟩ := by decide

/-- M1. -/
theorem test_swbyte_again : answered (exec .swbyte (inByte [1, 2, 3, 4] 3)) = some ⟨0, [], .byte, 3, 0⟩ := by decide

/-- B12: a five-byte span, in a signed container. -/
theorem test_getbits_five_bytes :
    answered (exec (.getbits 32) (inBit [0x01, 0xFF, 0xFF, 0xFF, 0xFE] 7)) =
      some ⟨0xFFFFFFFFFFFFFFFF, [], .bit, 0, 39⟩ := by decide

/-- B18. -/
theorem test_getbits_short : failed (exec (.getbits 9) (inBit [0xA5] 0)) = some (.bufferFault, .bit) := by decide

/-- F4: the low byte is the first one read. -/
theorem test_getu_little_add :
    answered (exec (.getu (.known .short) (.known .little) (.known .add)) (inByte [0x12, 0x34] 0)) =
      some ⟨0x3492, [], .byte, 2, 0⟩ := by decide

/-- F12. -/
theorem test_getu_inversed_middle :
    answered (exec (.getu (.known .int) (.known .inversedMiddle) (.known .none)) (inByte [1, 2, 3, 4] 0)) =
      some ⟨0x02010403, [], .byte, 4, 0⟩ := by decide

/-- F32: the sign is bit 7 of the third byte. -/
theorem test_gets_middle_sign :
    answered (exec (.gets (.known .int) (.known .middle) (.known .none)) (inByte [0, 0, 0x80, 0] 0)) =
      some ⟨0xFFFFFFFF80000000, [], .byte, 4, 0⟩ := by decide

/-- F51: an unrecognised transformation under `MIDDLE`. -/
theorem test_gets_middle_rejects :
    failed (exec (.gets (.known .int) (.known .middle) (.unrecognised 7)) (inByte [1, 2, 3, 4] 0)) =
      some (.invalidArgument, .byte) := by decide

/-- V8. -/
theorem test_getsmart_two_bytes :
    answered (exec .getsmart (inByte [0xBF, 0xBF] 0)) = some ⟨0xFFFFFFFFFFFFFFBF, [], .byte, 2, 0⟩ := by decide

/-- V9: the second byte is left unread. -/
theorem test_getsmart_one_byte :
    answered (exec .getsmart (inByte [0x12, 0x99] 0)) = some ⟨0xFFFFFFFFFFFFFFD2, [], .byte, 1, 0⟩ := by decide

/-- A1. -/
theorem test_getbytes :
    answered (exec (.getbytes 3) (inByte [0x10, 0x20, 0x30, 0x40] 0)) = some ⟨3, [0x10, 0x20, 0x30], .byte, 3, 0⟩ := by
  decide

/-- A13. -/
theorem test_getbytes_short :
    failed (exec (.getbytes 5) (inByte [0x10, 0x20, 0x30, 0x40] 0)) = some (.bufferFault, .byte) := by decide

/-- A2. -/
theorem test_getbytesr :
    answered (exec (.getbytesr 3) (inByte [0x10, 0x20, 0x30, 0x40] 0)) =
      some ⟨3, [0x30, 0x20, 0x10], .byte, 3, 0⟩ := by decide

/-- A3: `NONE` reverses. -/
theorem test_getbytesx_none :
    answered (exec (.getbytesx (.known .none) 3) (inByte [0x10, 0x20, 0x30, 0x40] 0)) =
      some ⟨3, [0x30, 0x20, 0x10], .byte, 3, 0⟩ := by decide

/-- A7: `SUBTRACT` does not. -/
theorem test_getbytesx_subtract :
    answered (exec (.getbytesx (.known .subtract) 3) (inByte [0x10, 0x20, 0x30, 0x40] 0)) =
      some ⟨3, [0x70, 0x60, 0x50], .byte, 3, 0⟩ := by decide

/-- A8. -/
theorem test_getbytesrx_subtract :
    answered (exec (.getbytesrx (.known .subtract) 3) (inByte [0x10, 0x20, 0x30, 0x40] 0)) =
      some ⟨3, [0x50, 0x60, 0x70], .byte, 3, 0⟩ := by decide

/-- A16. -/
theorem test_getbytesrx_unrecognised :
    failed (exec (.getbytesrx (.unrecognised 5) 3) (inByte [0x10, 0x20, 0x30, 0x40] 0)) =
      some (.invalidArgument, .byte) := by decide

/-- T1: the terminator is consumed and not stored. -/
theorem test_getstr :
    answered (exec .getstr (inByte [0x48, 0x69, 0x00, 0x21] 0)) = some ⟨2, [0x48, 0x69], .byte, 3, 0⟩ := by decide

/-- T6: a zero beyond `WR` is no terminator. -/
theorem test_getstr_zero_beyond_wr :
    failed (exec .getstr { inByte [0x48, 0x00] 0 with wr := 1 }) = some (.bufferFault, .byte) := by decide

/-- L1. -/
theorem test_getlen :
    answered (exec .getlen { inByte [1, 2, 3, 4, 5, 6, 7, 8] 1 with wr := 4 }) = some ⟨4, [], .byte, 1, 0⟩ := by decide

/-- L2. -/
theorem test_getrlen :
    answered (exec .getrlen { inByte [1, 2, 3, 4, 5, 6, 7, 8] 1 with wr := 4 }) = some ⟨3, [], .byte, 1, 0⟩ := by decide

-- The step ---------------------------------------------------------------------------------------------------------

/-- S5, the word issued by the host. -/
theorem test_step_runs_the_word :
    answered (step ((inByte [0xFF] 0).withFetchWord 32 0x51000000)) = some ⟨0xFFFFFFFFFFFFFFFF, [], .byte, 1, 0⟩ := by
  decide

/-- I2, in Bit mode. -/
theorem test_step_illegal_word :
    failed (step ((inBit [0xFF] 0).withFetchWord 32 0xE0000000)) = some (.invalidArgument, .bit) := by decide

/-- A binding places the bytes, and `GETU BYTE` reads the one at `RD`. -/
theorem test_bound_buffer :
    answered (exec (.getu (.known .byte) (.known .big) (.known .none))
      ((State.reset).setBuffer ⟨[0x11, 0x00, 0x33], 2, 3⟩)) = some ⟨0x33, [], .byte, 3, 0⟩ := by decide

-- Witnesses: the hypotheses of each obligation, met together, clause by clause ----------------------------------------

/-- A state that meets the invariant: at least one byte, all of it readable, the bit cursor in it. -/
theorem inv_of_small (s : State) (hm : s.mem.wf) (h1 : s.rd ≤ s.wr) (h2 : s.wr ≤ s.cap) (h3 : s.cap < 32)
    (h4 : s.bitcur ≤ 8 * s.wr) (h5 : s.mode = .bit → 8 * s.rd ≤ s.bitcur) : s.Inv :=
  ⟨hm, ⟨h1, h2, capacity_of_lt _ h3⟩, h4, h5⟩

theorem test_witness_DecodeOfEncodeIsTheCommand :
    Instr.wf (.getu (.unrecognised 15) (.unrecognised 7) (.unrecognised 4)) = true ∧
    Instr.wf (.getbytesrx (.unrecognised 7) 0xFFFF) = true := by decide

theorem test_witness_EveryCommandHasOneSpelling :
    decode 0x4FFC0000 = .command (.getu (.unrecognised 15) (.unrecognised 7) (.unrecognised 7)) := by decide

theorem test_witness_ReservedWordsAreIllegal :
    ReservedWord 0xE0000000 ∧ ReservedWord 0x30010004 ∧ ReservedWord 0x90200003 ∧ ReservedWord 0x70040003 ∧
    ReservedWord 0x41000001 ∧ ¬ ReservedWord 0x41000000 := by
  refine ⟨?_, ?_, ?_, ?_, ?_, ?_⟩ <;>
  · unfold ReservedWord
    dsimp only
    decide

theorem test_witness_StepRunsTheDecodedCommand :
    ((inByte [1] 0).withFetchWord 32 0xD0000000).inputs = [.cmd 0xD0000000] ∧
    decode 0xD0000000 = .command .getrlen := by decide

theorem test_witness_IdleStepKeepsTheState : (inByte [1] 1).inputs = [] := by decide

theorem test_witness_ResetSetsTheReader :
    let s := (inBit [1, 2] 16).setInputs [.rst]
    s.inputs = [.rst] ∧ s.rd ≤ s.wr ∧ s.wr ≤ s.cap := by decide

theorem test_witness_ResetAbandonsTheCommand :
    (let s := (inByte [1, 2] 2).setInputs [.cmdRst 0x70000001]
     s.inputs = [.cmdRst 0x70000001] ∧ s.rd ≤ s.wr ∧ s.wr ≤ s.cap) ∧
    (let s := (inBit [1, 2] 16).setInputs [.cmdRst 0x30000001]
     s.inputs = [.cmdRst 0x30000001] ∧ s.rd ≤ s.wr ∧ s.wr ≤ s.cap ∧ decode 0x30000001 = .command (.getbits 1) ∧
      Instr.getbits 1 = .getbits 1) ∧
    (let s := (inByte [1, 2] 2).setInputs [.cmdRst 0x20000000]
     s.inputs = [.cmdRst 0x20000000] ∧ s.mode = .byte ∧ decode 0x20000000 = .command .swbyte) ∧
    (let s := (inBit [1, 2] 0).setInputs [.cmdRst 0xB0000000]
     s.inputs = [.cmdRst 0xB0000000] ∧ s.mode = .bit ∧ decode 0xB0000000 = .command .getstr ∧
      needsByteMode .getstr = true) ∧
    (let s := (inByte [1, 2] 2).setInputs [.cmdRst 0]
     s.inputs = [.cmdRst 0] ∧ decode 0 = .illegal .reservedOp) := by decide

theorem test_witness_BindingPlacesTheBuffer :
    let b : BufferImage := ⟨List.replicate 31 7, 31, 31⟩
    ((inByte [] 0).setInputs [.bind b]).inputs = [.bind b] ∧ b.rd ≤ b.wr ∧ b.wr ≤ b.bytes.length ∧
      b.bytes.length < 2 ^ Config.addrWidth :=
  ⟨rfl, by decide, by decide, capacity_of_lt _ (by decide)⟩

theorem test_witness_BadBindingIsRefused :
    (let b : BufferImage := ⟨[1], 1, 0⟩
     ((inByte [] 0).setInputs [.bind b]).inputs = [.bind b] ∧ b.wr < b.rd) ∧
    (let b : BufferImage := ⟨[1], 0, 2⟩
     ((inByte [] 0).setInputs [.bind b]).inputs = [.bind b] ∧ b.bytes.length < b.wr) ∧
    (let s := (inByte [1] 2).setInputs [.rst]
     s.inputs = [.rst] ∧ s.wr < s.rd) ∧
    (let s := { inByte [1] 0 with wr := 2, inputs := [.rst] }
     s.inputs = [.rst] ∧ s.cap < s.wr) ∧
    (let s := (inByte [1] 2).setInputs [.cmdRst 0x10000000]
     s.inputs = [.cmdRst 0x10000000] ∧ s.wr < s.rd) := by decide

/-- The smallest buffer that no index can hold. -/
theorem test_witness_BadBindingIsRefused_capacity :
    let b : BufferImage := ⟨List.replicate (2 ^ Config.addrWidth) 1, 0, 0⟩
    ((inByte [] 0).setInputs [.bind b]).inputs = [.bind b] ∧ 2 ^ Config.addrWidth ≤ b.bytes.length :=
  ⟨rfl, by simp⟩

theorem test_witness_SwbitEntersBitMode :
    (inByte [1] 1).mode = .byte ∧ (inBit [1] 8).mode = .bit ∧ (inByte [1] 1).rd = (inByte [1] 1).wr ∧
    1 ≤ (1 : BitVec 16).toNat ∧ (32 : BitVec 16).toNat ≤ 32 := by decide

theorem test_witness_SwbyteReturnsToTheNextByte :
    ((inBit [1] 8).mode = .bit ∧ (inBit [1] 8).bitcur % 8 = 0 ∧ (inBit [1] 8).Inv ∧
      ∃ t, exec .swbyte (inBit [1] 8) = .next t) ∧
    ((inBit [1] 7).mode = .bit ∧ (inBit [1] 7).bitcur % 8 ≠ 0 ∧ (inBit [1] 7).Inv ∧
      ∃ t, exec .swbyte (inBit [1] 7) = .next t) ∧
    (inByte [1] 0).mode = .byte :=
  ⟨⟨rfl, rfl, inv_of_small _ (by decide) (by decide) (by decide) (by decide) (by decide) (by decide), _, rfl⟩,
    ⟨rfl, by decide, inv_of_small _ (by decide) (by decide) (by decide) (by decide) (by decide) (by decide), _, rfl⟩,
    rfl⟩

theorem test_witness_ModeSwitchLaws :
    (inByte [1, 2, 3, 4] 0).mode = .byte ∧ 1 ≤ (32 : BitVec 16).toNat ∧ (32 : BitVec 16).toNat ≤ 32 ∧
    8 * (inByte [1, 2, 3, 4] 0).rd + (32 : BitVec 16).toNat ≤ 8 * (inByte [1, 2, 3, 4] 0).wr ∧
    (inBit [1] 3).mode = .bit := by decide

theorem test_witness_OnlySwitchesChangeMode :
    (∃ t, exec .swbit (inByte [1] 0) = .next t) ∧ (∃ t, exec .swbyte (inBit [1] 1) = .next t) ∧
    (Instr.getrlen ≠ .swbit ∧ Instr.getrlen ≠ .swbyte ∧ ∃ t, exec .getrlen (inBit [1] 1) = .next t) ∧
    (decode 0xF0000000 = .illegal .reservedOp ∧ ∃ t, runWord 0xF0000000 (inBit [1] 1) = .next t) :=
  ⟨⟨_, rfl⟩, ⟨_, rfl⟩, ⟨by decide, by decide, _, rfl⟩, by decide, _, rfl⟩

theorem test_witness_GetbitsAnswersTheBitRun :
    (inByte [1] 0).mode = .byte ∧
    ((inBit [1] 0).mode = .bit ∧ (0 : BitVec 16).toNat < 1 ∧ 32 < (33 : BitVec 16).toNat) ∧
    ((inBit [1] 0).mode = .bit ∧ (inBit [1] 0).bitcur ≤ 8 * (inBit [1] 0).wr ∧
      8 * (inBit [1] 0).wr < (inBit [1] 0).bitcur + (9 : BitVec 16).toNat) ∧
    ((inBit [1] 0).mode = .bit ∧ (inBit [1] 0).bitcur + (8 : BitVec 16).toNat ≤ 8 * (inBit [1] 0).wr) ∧
    ((inBit [1] 7).mode = .bit ∧ (inBit [1] 7).bitcur + (1 : BitVec 16).toNat ≤ 8 * (inBit [1] 7).wr) ∧
    ((inBit [1, 2, 3, 4, 5] 8).mode = .bit ∧
      (inBit [1, 2, 3, 4, 5] 8).bitcur + (32 : BitVec 16).toNat ≤ 8 * (inBit [1, 2, 3, 4, 5] 8).wr) := by decide

theorem test_witness_GetbitsContainer :
    (inBit [0x80, 0, 0, 0] 0).mode = .bit ∧ (1 : BitVec 16).toNat ≤ 31 ∧ (31 : BitVec 16).toNat ≤ 31 ∧
    (32 : BitVec 16).toNat = 32 ∧
    (inBit [0x80, 0, 0, 0] 0).bitcur + (32 : BitVec 16).toNat ≤ 8 * (inBit [0x80, 0, 0, 0] 0).wr := by decide

theorem test_witness_GetbitsAmountRange :
    (inByte [1] 0).mode = .byte ∧ (inBit [1] 0).mode = .bit ∧ (0 : BitVec 16).toNat = 0 ∧
    33 ≤ (33 : BitVec 16).toNat ∧ 1 ≤ (1 : BitVec 16).toNat ∧ (32 : BitVec 16).toNat ≤ 32 := by decide

theorem test_witness_GetbitReadsOneBit :
    (inBit [1] 7).mode = .bit ∧ (inBit [1] 7).bitcur < 8 * (inBit [1] 7).wr := by decide

theorem test_witness_GetbitsSplits :
    (inBit [1, 2, 3, 4] 0).mode = .bit ∧ 1 ≤ (1 : BitVec 16).toNat ∧ 1 ≤ (31 : BitVec 16).toNat ∧
    (32 : BitVec 16).toNat = (1 : BitVec 16).toNat + (31 : BitVec 16).toNat ∧ (32 : BitVec 16).toNat ≤ 32 ∧
    (inBit [1, 2, 3, 4] 0).bitcur + (32 : BitVec 16).toNat ≤ 8 * (inBit [1, 2, 3, 4] 0).wr := by decide

theorem test_witness_BitViewEqualsByteView :
    DataType.int ≠ .long ∧ (32 : BitVec 16).toNat = 8 * typeWidth .int ∧
    1 + typeWidth .int ≤ (inByte [1, 2, 3, 4, 5] 0).wr := by decide

theorem test_witness_BitRunTouchesAtMostFiveBytes : 1 ≤ 1 ∧ 32 ≤ 32 ∧ spanBytes 7 32 = 5 ∧ spanBytes 7 1 = 1 := by
  decide

theorem test_witness_TransformationFormulas :
    (inByte [0x80] 0).mode = .byte ∧ isMiddleOrder .little = false ∧ (inByte [0x80] 0).rd < (inByte [0x80] 0).wr := by
  decide

/-- Serves `GetuAnswersThePlacedValue`, `GetsAnswersTheSignedValue` and `SignExtensionUnit`: the narrowest and the widest
type and a middle order, each at the end of the readable data. -/
theorem test_witness_legal_reads :
    (legalCombination .byte .big .add = true ∧ (inByte [1, 2] 1).mode = .byte ∧
      (inByte [1, 2] 1).rd + typeWidth .byte ≤ (inByte [1, 2] 1).wr) ∧
    (legalCombination .long .little .negate = true ∧
      (inByte [1, 2, 3, 4, 5, 6, 7, 8] 0).rd + typeWidth .long ≤ (inByte [1, 2, 3, 4, 5, 6, 7, 8] 0).wr) ∧
    (legalCombination .int .middle .none = true ∧
      (inByte [1, 2, 3, 4] 0).rd + typeWidth .int ≤ (inByte [1, 2, 3, 4] 0).wr) ∧
    ((inByte [1, 2] 1).rd ≤ (inByte [1, 2] 1).wr ∧ legalCombination .short .big .none = true ∧
      (inByte [1, 2] 1).wr < (inByte [1, 2] 1).rd + typeWidth .short) ∧
    (inBit [1] 0).mode = .bit ∧ badSelectors (.known .short) (.known .middle) (.known .none) = true := by decide

theorem test_witness_FixedWidthArgumentErrors :
    (Instr.getu = Instr.getu ∨ Instr.getu = Instr.gets) ∧ (Instr.gets = Instr.getu ∨ Instr.gets = Instr.gets) ∧
    (inByte [1] 1).mode = .byte ∧ isMiddleOrder .middle = true ∧ XfField.unrecognised 4 ≠ .known .none ∧
    DataType.medium ≠ .int ∧ isMiddleOrder .big = false ∧ (inByte [1] 1).rd ≤ (inByte [1] 1).wr :=
  ⟨.inl rfl, .inr rfl, rfl, rfl, by decide, by decide, rfl, by decide⟩

theorem test_witness_FixedWidthRoundTrip :
    (inByte [0x12, 0xB4] 0).mode = .byte ∧ legalCombination .short .big .add = true ∧
    (inByte [0x12, 0xB4] 0).rd + typeWidth .short ≤ (inByte [0x12, 0xB4] 0).wr ∧
    0x1234 < 2 ^ (8 * typeWidth .short) ∧
    ∀ k < typeWidth .short,
      (inByte [0x12, 0xB4] 0).byteAt ((inByte [0x12, 0xB4] 0).rd + k) = fieldByte .big .add (typeWidth .short) 0x1234 k := by
  decide

theorem test_witness_BigOrderLaws : 1 ≤ 1 := by decide

theorem test_witness_GetsmartForms :
    (inBit [0] 0).mode = .bit ∧ ((inByte [0] 1).mode = .byte ∧ (inByte [0] 1).rd = (inByte [0] 1).wr) ∧
    ((inByte [0x7F] 0).rd < (inByte [0x7F] 0).wr ∧ ((inByte [0x7F] 0).byteAt 0).toNat < 128) ∧
    ((inByte [0x80] 0).rd + 1 = (inByte [0x80] 0).wr ∧ 128 ≤ ((inByte [0x80] 0).byteAt 0).toNat) ∧
    ((inByte [0x80, 0] 0).rd + 1 < (inByte [0x80, 0] 0).wr ∧ 128 ≤ ((inByte [0x80, 0] 0).byteAt 0).toNat) := by decide

theorem test_witness_GetsmartReferenceValues :
    ((inByte [0x00] 0).mode = .byte ∧ (inByte [0x00] 0).rd < (inByte [0x00] 0).wr ∧ (inByte [0x00] 0).byteAt 0 = 0x00) ∧
    ((inByte [0x7F] 0).rd < (inByte [0x7F] 0).wr ∧ (inByte [0x7F] 0).byteAt 0 = 0x7F) ∧
    ((inByte [0x80, 0] 0).rd + 1 < (inByte [0x80, 0] 0).wr ∧ (inByte [0x80, 0] 0).byteAt 0 = 0x80 ∧
      (inByte [0x80, 0] 0).byteAt 1 = 0x00) ∧
    ((inByte [0xFF, 0xFF] 0).rd + 1 < (inByte [0xFF, 0xFF] 0).wr ∧ (inByte [0xFF, 0xFF] 0).byteAt 0 = 0xFF ∧
      (inByte [0xFF, 0xFF] 0).byteAt 1 = 0xFF) := by decide

theorem test_witness_GetsmartRange :
    ∃ t r, exec .getsmart (inByte [0x80, 0] 0) = .next t ∧ t.rsp = some r ∧ r.status = .ok ∧
      (inByte [0x80, 0] 0).mode = .byte := ⟨_, _, rfl, rfl, rfl, rfl⟩

/-- Serves `GetbytesFillsForward` and `GetbytesrFillsBackward`. -/
theorem test_witness_array_reads :
    (inBit [1] 0).mode = .bit ∧
    ((inByte [1, 2] 1).mode = .byte ∧ (inByte [1, 2] 1).rd ≤ (inByte [1, 2] 1).wr ∧
      (inByte [1, 2] 1).wr < (inByte [1, 2] 1).rd + (2 : BitVec 16).toNat) ∧
    ((inByte [1, 2] 0).mode = .byte ∧ (inByte [1, 2] 0).rd + (2 : BitVec 16).toNat ≤ (inByte [1, 2] 0).wr) ∧
    (0 : BitVec 16).toNat ≤ 1 ∧ (1 : BitVec 16).toNat ≤ 1 := by decide

/-- Serves `GetbytesxForms` and `GetbytesrxForms`. -/
theorem test_witness_transformed_array_reads :
    (inBit [1] 0).mode = .bit ∧
    ((inByte [1, 2] 2).mode = .byte ∧ (inByte [1, 2] 2).rd ≤ (inByte [1, 2] 2).wr ∧ 0 < (1 : BitVec 16).toNat ∧
      XfField.unrecognised 4 = .unrecognised 4) ∧
    ((inByte [1, 2] 1).rd ≤ (inByte [1, 2] 1).wr ∧
      (inByte [1, 2] 1).wr < (inByte [1, 2] 1).rd + (2 : BitVec 16).toNat ∧ XfField.known .add = .known .add) ∧
    ((inByte [1, 2] 0).rd + (2 : BitVec 16).toNat ≤ (inByte [1, 2] 0).wr ∧ DataTransformation.negate ≠ .none) ∧
    XfField.known .none = .known .none := by decide

theorem test_witness_GetstrReadsToTheTerminator :
    (inBit [1] 0).mode = .bit ∧
    ((inByte [0x48, 0x69] 0).mode = .byte ∧ (inByte [0x48, 0x69] 0).rd ≤ (inByte [0x48, 0x69] 0).wr ∧
      ∀ i, (inByte [0x48, 0x69] 0).rd ≤ i → i < (inByte [0x48, 0x69] 0).wr → (inByte [0x48, 0x69] 0).byteAt i ≠ 0) ∧
    (inByte [0x48, 0x00] 0).TextLength 1 ∧ (inByte [0x00] 0).TextLength 0 ∧
    ∃ t r, exec .getstr (inByte [0x48, 0x00] 0) = .next t ∧ t.rsp = some r :=
  ⟨rfl, ⟨rfl, by decide, by decide⟩, by decide, by decide, _, _, rfl, rfl⟩

theorem test_witness_GetlenAnswersWritable :
    (inByte [1] 1).mode = .byte ∧ (inBit [1] 0).mode = .bit ∧ (inByte [1] 1).wr = (inByte [1] 1).cap ∧
    (inByte [1] 1).extentsOk :=
  ⟨rfl, rfl, rfl, by decide, by decide, capacity_of_lt _ (by decide)⟩

theorem test_witness_GetrlenAnswersReadable :
    (inByte [1] 1).mode = .byte ∧ (inBit [1] 0).mode = .bit ∧ (inByte [1] 1).rd = (inByte [1] 1).wr ∧
    (∃ t, exec (.getbytes 2) (inByte [1, 2] 0) = .next t ∧ Answers .ok (exec (.getbytes 2) (inByte [1, 2] 0)) ∧
      t.mode = .byte ∧ t.rd = (inByte [1, 2] 0).rd + 2) ∧
    (∃ t, exec .swbyte (inBit [1, 2] 9) = .next t ∧ Answers .ok (exec .swbyte (inBit [1, 2] 9)) ∧
      t.mode = .byte ∧ t.rd = (inBit [1, 2] 9).rd + 2) :=
  ⟨rfl, rfl, rfl, ⟨_, rfl, ⟨_, _, rfl, rfl, rfl⟩, rfl, rfl⟩, _, rfl, ⟨_, _, rfl, rfl, rfl⟩, rfl, rfl⟩

theorem test_witness_WrongModeIsPrecise :
    WrongMode .getstr (inBit [1] 0) ∧ WrongMode (.getbits 0) (inByte [1] 0) ∧ ¬ WrongMode (.getbits 0) (inBit [1] 0) := by
  decide

theorem test_witness_BufferFaultExactlyWhenShort :
    ((inByte [1] 1).rd ≤ (inByte [1] 1).wr ∧ (inByte [1] 1).bitcur ≤ 8 * (inByte [1] 1).wr ∧
      ¬ WrongMode (.getbytes 1) (inByte [1] 1) ∧ badArguments (.getbytes 1) = false ∧
      ShortOfBytes (.getbytes 1) (inByte [1] 1) ∧ (inByte [1] 1).mode = .byte ∧
      Answers (.error .bufferFault) (exec (.getbytes 1) (inByte [1] 1))) ∧
    ((inBit [1] 8).rd ≤ (inBit [1] 8).wr ∧ (inBit [1] 8).bitcur ≤ 8 * (inBit [1] 8).wr ∧
      ¬ WrongMode (.getbits 1) (inBit [1] 8) ∧ badArguments (.getbits 1) = false ∧
      ShortOfBytes (.getbits 1) (inBit [1] 8) ∧ (inBit [1] 8).mode = .bit ∧
      Answers (.error .bufferFault) (exec (.getbits 1) (inBit [1] 8))) := by
  refine ⟨⟨by decide, by decide, by decide, rfl, ?_, rfl, _, _, rfl, rfl, rfl⟩,
    ⟨by decide, by decide, by decide, rfl, ?_, rfl, _, _, rfl, rfl, rfl⟩⟩ <;>
  · unfold ShortOfBytes
    decide

theorem test_witness_ErrorPriority :
    decode 0x10000001 = .illegal .unusedField ∧ (inByte [1] 1).rd ≤ (inByte [1] 1).wr ∧
    WrongMode (.getbits 0) (inByte [1] 1) ∧
    (¬ WrongMode (.getu (.known .int) (.known .big) (.unrecognised 5)) (inByte [1] 1) ∧
      badArguments (.getu (.known .int) (.known .big) (.unrecognised 5)) = true) ∧
    (¬ WrongMode .getstr (inByte [1] 1) ∧ badArguments .getstr = false ∧ ShortOfBytes .getstr (inByte [1] 1)) ∧
    (¬ WrongMode (.getbytes 1) (inByte [1] 0) ∧ badArguments (.getbytes 1) = false ∧
      ¬ ShortOfBytes (.getbytes 1) (inByte [1] 0)) := by
  unfold ShortOfBytes
  decide

theorem test_witness_ErrorMatrix :
    Answers (.error .invalidMode) (exec .getlen (inBit [1] 0)) ∧
    Answers (.error .invalidArgument) (exec (.getbits 33) (inBit [1] 0)) ∧
    Answers (.error .bufferFault) (exec .getsmart (inByte [] 0)) :=
  ⟨⟨_, _, rfl, rfl, rfl⟩, ⟨_, _, rfl, rfl, rfl⟩, _, _, rfl, rfl, rfl⟩

theorem test_witness_EveryDrawValueIsAdmitted : 3 ≤ 4 ∧ 4 ≤ 4 := by decide

/-- Serves `UnitNeverWritesTheBuffer` and `CommandFrame`: a command that succeeds and one that fails. -/
theorem test_witness_frames :
    (∃ t, runWord 0x60000000 (inByte [1] 0) = .next t) ∧ (∃ t, runWord 0x60000000 (inByte [1] 1) = .next t) ∧
    (∃ t, exec .getsmart (inByte [1] 0) = .next t) ∧ Answers .ok (exec .getsmart (inByte [1] 0)) ∧
    (needsBitMode (.getbits 1) = true ∧ ∃ t, exec (.getbits 1) (inBit [1] 0) = .next t) ∧
    (Instr.getstr ≠ .swbit ∧ Instr.getstr ≠ .swbyte ∧ needsBitMode .getstr = false ∧
      ∃ t, exec .getstr (inByte [1] 0) = .next t) :=
  ⟨⟨_, rfl⟩, ⟨_, rfl⟩, ⟨_, rfl⟩, ⟨_, _, rfl, rfl, rfl⟩, ⟨rfl, _, rfl⟩, by decide, by decide, rfl, _, rfl⟩

theorem test_witness_StaleCursorIsNotObserved :
    ((inByte [1] 0).mode = .byte ∧ Instr.getsmart ≠ .swbit ∧ ∃ t, exec .getsmart (inByte [1] 0) = .next t) ∧
    ((inBit [1] 0).mode = .bit ∧ Instr.getbits 1 ≠ .swbyte ∧ ∃ t, exec (.getbits 1) (inBit [1] 0) = .next t) ∧
    (8 * (inBit [1] 1).rd ≤ (inBit [1] 1).bitcur ∧ ∃ t, exec .swbyte (inBit [1] 1) = .next t) :=
  ⟨⟨rfl, by decide, _, rfl⟩, ⟨rfl, by decide, _, rfl⟩, by decide, _, rfl⟩

/-- The byte before the cursor is another one, and the contents go on beyond `WR`. -/
theorem test_witness_OnlyReadableBytesMatter :
    (∀ a, (if (inByte [1, 2] 1).mode = .byte then (inByte [1, 2] 1).rd else (inByte [1, 2] 1).bitcur / 8) ≤ a →
      a < (inByte [1, 2] 1).wr → Memory.read [(0, 9), (1, 2), (2, 9)] a = (inByte [1, 2] 1).byteAt a) ∧
    (∀ a, (if (inBit [1, 2] 8).mode = .byte then (inBit [1, 2] 8).rd else (inBit [1, 2] 8).bitcur / 8) ≤ a →
      a < (inBit [1, 2] 8).wr → Memory.read [(0, 9), (1, 2), (2, 9)] a = (inBit [1, 2] 8).byteAt a) := by decide

theorem test_witness_CursorsMoveForward :
    ((inByte [1] 1).Inv ∧ (inByte [1] 1).mode = .byte ∧ ∃ t, exec (.getbytes 1) (inByte [1] 1) = .next t) ∧
    ((inByte [1] 1).Inv ∧ (inByte [1] 1).mode = .byte ∧ ∃ t, exec .swbit (inByte [1] 1) = .next t) ∧
    ((inBit [1] 3).Inv ∧ (inBit [1] 3).mode = .bit ∧ ∃ t, exec .swbyte (inBit [1] 3) = .next t) :=
  ⟨⟨inv_of_small _ (by decide) (by decide) (by decide) (by decide) (by decide) (by decide), rfl, _, rfl⟩,
    ⟨inv_of_small _ (by decide) (by decide) (by decide) (by decide) (by decide) (by decide), rfl, _, rfl⟩,
    inv_of_small _ (by decide) (by decide) (by decide) (by decide) (by decide) (by decide), rfl, _, rfl⟩

theorem test_witness_StepKeepsTheInvariant :
    ((inByte [1] 1).withFetchWord 32 0x70000001).Inv ∧
    ∃ t, step ((inByte [1] 1).withFetchWord 32 0x70000001) = .next t :=
  ⟨inv_of_small _ (by decide) (by decide) (by decide) (by decide) (by decide) (by decide), _, rfl⟩

theorem test_witness_InvariantBoundsTheWidths : (inBit [1, 2] 16).Inv :=
  inv_of_small _ (by decide) (by decide) (by decide) (by decide) (by decide) (by decide)

end Sys2Proof.Tests
end

section
/-! Updates that a command neither sees nor disturbs. A command that works at `RD` commutes with every update of the
state that keeps what such a command reads and commutes with what it writes, and so does a command that works at
`BITCUR`; overwriting the stale cursor of R21 is one such update for each. -/

namespace Sys2Proof.Machine

/-- The update keeps what a command reads in either mode, and commutes with the writes of every response. -/
structure KeepsCommonView (f : State → State) : Prop where
  mode : ∀ s, (f s).mode = s.mode
  wr : ∀ s, (f s).wr = s.wr
  cap : ∀ s, (f s).cap = s.cap
  draws : ∀ s, (f s).draws = s.draws
  byteAt : ∀ s a, (f s).byteAt a = s.byteAt a
  setRsp : ∀ s r, (f s).setRsp r = f (s.setRsp r)
  nextDraw : ∀ s, (f s).nextDraw = f s.nextDraw

/-- The update also keeps `RD` and commutes with writing it: what the commands that work at `RD` need. -/
structure KeepsByteView (f : State → State) : Prop extends KeepsCommonView f where
  rd : ∀ s, (f s).rd = s.rd
  setRd : ∀ s r, (f s).setRd r = f (s.setRd r)

/-- The update also keeps `BITCUR` and commutes with writing it: what the commands that work at `BITCUR` need. -/
structure KeepsBitView (f : State → State) : Prop extends KeepsCommonView f where
  bitcur : ∀ s, (f s).bitcur = s.bitcur
  setBitcur : ∀ s c, (f s).setBitcur c = f (s.setBitcur c)

theorem keepsByteView_setBitcur (c : Nat) : KeepsByteView fun s => s.setBitcur c where
  mode _ := rfl
  wr _ := rfl
  cap _ := rfl
  draws _ := rfl
  byteAt _ _ := rfl
  setRsp _ _ := rfl
  nextDraw _ := rfl
  rd _ := rfl
  setRd _ _ := rfl

theorem keepsBitView_setRd (r : Nat) : KeepsBitView fun s => s.setRd r where
  mode _ := rfl
  wr _ := rfl
  cap _ := rfl
  draws _ := rfl
  byteAt _ _ := rfl
  setRsp _ _ := rfl
  nextDraw _ := rfl
  bitcur _ := rfl
  setBitcur _ _ := rfl

@[simp] theorem mapNext_next (f : State → State) (s : State) : mapNext f (.next s) = .next (f s) := rfl

section CommonView

variable {f : State → State} (hf : KeepsCommonView f) (s : State)
include hf

theorem KeepsCommonView.drawIn (lo hi : Nat) : (f s).drawIn lo hi = s.drawIn lo hi := by
  rw [State.drawIn, hf.draws, State.drawIn]

theorem KeepsCommonView.peek (a : Nat) : (f s).peek a = s.peek a := by
  rw [State.peek, hf.wr, hf.byteAt, State.peek]

theorem KeepsCommonView.peekN (n a : Nat) : (f s).peekN n a = s.peekN n a := by
  induction n generalizing a with
  | zero => rfl
  | succ n ih => rw [State.peekN, hf.peek, ih, State.peekN]

theorem KeepsCommonView.writable : (f s).writable = s.writable := by
  rw [State.writable, hf.cap, hf.wr, State.writable]

theorem KeepsCommonView.respondWith (v : Int) (out : List Byte) :
    respondWith v out (f s) = mapNext f (respondWith v out s) :=
  congrArg Host.Outcome.next (hf.setRsp s _)

theorem KeepsCommonView.respond (v : Int) : respond v (f s) = mapNext f (respond v s) :=
  hf.respondWith s v []

theorem KeepsCommonView.raise (e : ErrorKind) : raise e (f s) = mapNext f (raise e s) := by
  rw [Machine.raise, hf.draws, hf.setRsp, hf.nextDraw, Machine.raise, mapNext_next]

theorem KeepsCommonView.requireMode (m : Mode) {body body' : StepResult} (h : body' = mapNext f body) :
    requireMode m (f s) body' = mapNext f (requireMode m s body) := by
  by_cases hm : s.mode = m
  · rw [requireMode_of_eq _ _ _ ((hf.mode s).trans hm), requireMode_of_eq _ _ _ hm, h]
  · rw [requireMode_of_ne _ _ _ (by rwa [hf.mode]), requireMode_of_ne _ _ _ hm, hf.raise]

end CommonView

section ByteView

variable {f : State → State} (hf : KeepsByteView f) (s : State)
include hf

theorem KeepsByteView.readable : (f s).readable = s.readable := by
  rw [State.readable, hf.wr, hf.rd, State.readable]

theorem KeepsByteView.consume : (f s).consume = s.consume.map (Prod.map id f) := by
  rw [State.consume, hf.rd, hf.wr, hf.byteAt, hf.setRd, State.consume]
  split <;> rfl

theorem KeepsByteView.consumeN (n : Nat) : (f s).consumeN n = (s.consumeN n).map (Prod.map id f) := by
  induction n generalizing s with
  | zero => rfl
  | succ n ih =>
    rw [State.consumeN, State.consumeN, hf.consume]
    rcases s.consume with _ | ⟨b, s₁⟩
    · rfl
    · simp only [Option.map_some, Prod.map_apply, ih]
      cases s₁.consumeN n <;> rfl

theorem KeepsByteView.consumeText (fuel : Nat) :
    (f s).consumeText fuel = (s.consumeText fuel).map (Prod.map id f) := by
  induction fuel generalizing s with
  | zero => rfl
  | succ fuel ih =>
    rw [State.consumeText, State.consumeText, hf.consume]
    rcases s.consume with _ | ⟨b, s₁⟩
    · rfl
    · simp only [Option.map_some, Prod.map_apply, id, ih]
      split
      · rfl
      · cases s₁.consumeText fuel <;> rfl

theorem KeepsByteView.raiseByteFault : raiseByteFault (f s) = mapNext f (raiseByteFault s) := by
  rw [Machine.raiseByteFault, hf.rd, hf.wr, hf.drawIn, hf.setRd, hf.raise, Machine.raiseByteFault]

theorem KeepsByteView.raiseMidField (w : Nat) : raiseMidField w (f s) = mapNext f (raiseMidField w s) := by
  rw [Machine.raiseMidField, hf.rd, hf.wr, hf.drawIn, hf.setRd, hf.raise, Machine.raiseMidField]

theorem KeepsByteView.fillArray (n : Nat) (slots : List Byte → List Byte) :
    fillArray n slots (f s) = mapNext f (fillArray n slots s) := by
  rw [Machine.fillArray, Machine.fillArray, hf.consumeN]
  rcases s.consumeN n with _ | ⟨bs, s₁⟩
  · exact hf.raiseByteFault s
  · exact hf.respondWith s₁ n (slots bs)

theorem KeepsByteView.fillTransformed (xf : XfField) (n : Nat) (layout : List Byte → List Byte) :
    fillTransformed xf n layout (f s) = mapNext f (fillTransformed xf n layout s) := by
  cases xf with
  | known x => exact hf.fillArray s n _
  | unrecognised c =>
    by_cases hn : n = 0
    · simp only [Machine.fillTransformed, if_pos hn, hf.respondWith]
    · simp only [Machine.fillTransformed, if_neg hn, hf.raiseMidField]

theorem KeepsByteView.readRaw (ty : TypeField) (ord : OrdField) (xf : XfField) (result : Nat → Nat → Int) :
    readRaw ty ord xf result (f s) = mapNext f (readRaw ty ord xf result s) := by
  unfold Machine.readRaw
  cases rawPlan ty ord xf with
  | reject => exact hf.raise s _
  | rejectMidField w => exact hf.raiseMidField s w
  | legal t o x =>
    simp only [hf.consumeN]
    rcases s.consumeN (typeWidth t) with _ | ⟨bs, s₁⟩
    · exact hf.raiseByteFault s
    · exact hf.respond s₁ _

theorem KeepsByteView.smartShort : smartShort (f s) = mapNext f (smartShort s) := by
  rw [Machine.smartShort, Machine.smartShort, hf.consume]
  rcases s.consume with _ | ⟨v, s₁⟩
  · exact hf.raiseByteFault s
  · exact hf.respond s₁ _

theorem KeepsByteView.smartLong : smartLong (f s) = mapNext f (smartLong s) := by
  rw [Machine.smartLong, Machine.smartLong, hf.consume]
  rcases s.consume with _ | ⟨hi, s₁⟩
  · exact hf.raiseByteFault s
  · simp only [Option.map_some, Prod.map_apply, hf.consume]
    rcases s₁.consume with _ | ⟨lo, s₂⟩
    · exact hf.raiseByteFault s
    · exact hf.respond s₂ _

theorem KeepsByteView.execGetsmart : execGetsmart (f s) = mapNext f (execGetsmart s) := by
  refine hf.requireMode s .byte ?_
  rw [hf.rd, hf.peek]
  rcases s.peek s.rd with _ | p
  · exact hf.raiseByteFault s
  · by_cases hp : p.toNat < 128
    · simp only [if_pos hp, hf.smartShort]
    · simp only [if_neg hp, hf.smartLong]

/-- What `GETBYTESX` and `GETBYTESRX` do past their mode check, by their transformation (R94, R95). -/
theorem KeepsByteView.fillByTransformation (xf : XfField) (n : Nat) (layout : List Byte → List Byte) :
    (if xf = .known .none then Machine.fillArray n List.reverse (f s)
      else Machine.fillTransformed xf n layout (f s)) =
    mapNext f (if xf = .known .none then Machine.fillArray n List.reverse s
      else Machine.fillTransformed xf n layout s) := by
  by_cases hx : xf = .known .none
  · simp only [if_pos hx, hf.fillArray]
  · simp only [if_neg hx, hf.fillTransformed]

theorem KeepsByteView.execGetstr : execGetstr (f s) = mapNext f (execGetstr s) := by
  refine hf.requireMode s .byte ?_
  rw [hf.rd, hf.wr, hf.consumeText]
  rcases s.consumeText (s.wr - s.rd) with _ | ⟨bs, s₁⟩
  · exact hf.raiseByteFault s
  · exact hf.respondWith s₁ _ bs

/-- A command that requires Byte mode commutes with every update that keeps the view at `RD`, in either mode: in Bit
mode it only raises `InvalidModeError`. -/
theorem KeepsByteView.exec_of_needsByteMode (i : Instr) (hi : needsByteMode i = true) :
    exec i (f s) = mapNext f (exec i s) := by
  cases i with
  | swbit | swbyte | getbits a => cases hi
  | getu t o x => exact hf.requireMode s .byte (hf.readRaw s t o x _)
  | gets t o x => exact hf.requireMode s .byte (hf.readRaw s t o x _)
  | getsmart => exact hf.execGetsmart s
  | getbytes n => exact hf.requireMode s .byte (hf.fillArray s _ _)
  | getbytesr n => exact hf.requireMode s .byte (hf.fillArray s _ _)
  | getbytesx x n => exact hf.requireMode s .byte (hf.fillByTransformation s x _ _)
  | getbytesrx x n => exact hf.requireMode s .byte (hf.fillByTransformation s x _ _)
  | getstr => exact hf.execGetstr s
  | getlen => exact hf.requireMode s .byte (by rw [hf.writable, hf.respond])
  | getrlen => exact hf.requireMode s .byte (by rw [hf.readable, hf.respond])

end ByteView

section BitView

variable {f : State → State} (hf : KeepsBitView f) (s : State)
include hf

theorem KeepsBitView.raiseBitFault : raiseBitFault (f s) = mapNext f (raiseBitFault s) := by
  rw [Machine.raiseBitFault, hf.bitcur, hf.wr, hf.drawIn, hf.setBitcur, hf.raise, Machine.raiseBitFault]

theorem KeepsBitView.extractBits (a : Nat) : extractBits a (f s) = mapNext f (extractBits a s) := by
  rw [Machine.extractBits, hf.bitcur, hf.peekN, hf.setBitcur, Machine.extractBits]
  cases s.peekN (spanBytes s.bitcur a) (firstByte s.bitcur) with
  | none => exact hf.raiseBitFault s
  | some bs => exact hf.respond _ _

/-- `GETBITS` commutes with every update that keeps the view at `BITCUR`, in either mode. -/
theorem KeepsBitView.execGetbits (a : BitVec 16) : execGetbits a (f s) = mapNext f (execGetbits a s) := by
  refine hf.requireMode s .bit ?_
  by_cases ha : a.toNat < 1 ∨ 32 < a.toNat
  · simp only [if_pos ha, hf.raise]
  · simp only [if_neg ha, hf.extractBits]

end BitView

/-- A command whose mode check fails raises `InvalidModeError`, whatever its operands are (R102). -/
theorem exec_of_wrongMode (i : Instr) (s : State) (h : WrongMode i s) : exec i s = raise .invalidMode s := by
  obtain ⟨hi, hm⟩ | ⟨hi, hm⟩ := h
  · cases i with
    | swbit | swbyte | getbits a => cases hi
    | _ => exact requireMode_of_ne _ _ _ (by simp [hm])
  · cases i with
    | getbits a => exact requireMode_of_ne _ _ _ (by simp [hm])
    | _ => cases hi

theorem execSwbit_of_byte (s : State) (h : s.mode = .byte) :
    execSwbit s = respond 0 ((s.setBitcur (s.rd * 8)).setMode .bit) := if_pos h

theorem execSwbit_of_bit (s : State) (h : s.mode = .bit) : execSwbit s = respond 0 s := if_neg (by simp [h])

theorem execSwbyte_of_bit (s : State) (h : s.mode = .bit) :
    execSwbyte s = respond 0 ((s.setRd ((s.bitcur + 7) >>> 3)).setMode .byte) := if_pos h

theorem execSwbyte_of_byte (s : State) (h : s.mode = .byte) : execSwbyte s = respond 0 s := if_neg (by simp [h])

/-- In Byte mode every command but `SWBIT` commutes with an update that keeps the view at `RD`. -/
theorem KeepsByteView.exec_of_byte {f : State → State} (hf : KeepsByteView f) (i : Instr) (s : State)
    (hm : s.mode = .byte) (hi : i ≠ .swbit) : exec i (f s) = mapNext f (exec i s) := by
  have hm' : (f s).mode = .byte := (hf.mode s).trans hm
  cases i with
  | swbit => exact absurd rfl hi
  | swbyte =>
    calc execSwbyte (f s) = respond 0 (f s) := execSwbyte_of_byte _ hm'
      _ = mapNext f (respond 0 s) := hf.respond s 0
      _ = mapNext f (execSwbyte s) := by rw [execSwbyte_of_byte s hm]
  | getbits a =>
    rw [exec_of_wrongMode _ s (.inr ⟨rfl, hm⟩), exec_of_wrongMode _ (f s) (.inr ⟨rfl, hm'⟩), hf.raise]
  | _ => exact hf.exec_of_needsByteMode s _ rfl

/-- In Bit mode every command but `SWBYTE` commutes with an update that keeps the view at `BITCUR`. -/
theorem KeepsBitView.exec_of_bit {f : State → State} (hf : KeepsBitView f) (i : Instr) (s : State)
    (hm : s.mode = .bit) (hi : i ≠ .swbyte) : exec i (f s) = mapNext f (exec i s) := by
  have hm' : (f s).mode = .bit := (hf.mode s).trans hm
  cases i with
  | swbyte => exact absurd rfl hi
  | swbit =>
    calc execSwbit (f s) = respond 0 (f s) := execSwbit_of_bit _ hm'
      _ = mapNext f (respond 0 s) := hf.respond s 0
      _ = mapNext f (execSwbit s) := by rw [execSwbit_of_bit s hm]
  | getbits a => exact hf.execGetbits s a
  | _ => rw [exec_of_wrongMode _ s (.inl ⟨rfl, hm⟩), exec_of_wrongMode _ (f s) (.inl ⟨rfl, hm'⟩), hf.raise]

/-- In Byte mode no command but `SWBIT` writes `BITCUR`: setting it to its own value before the command must have the
same end as setting it after. -/
theorem exec_bitcur_of_byte (i : Instr) (s t : State) (hm : s.mode = .byte) (hi : i ≠ .swbit)
    (h : exec i s = .next t) : t.bitcur = s.bitcur := by
  have hcomm : exec i s = mapNext (fun t => t.setBitcur s.bitcur) (exec i s) :=
    (keepsByteView_setBitcur s.bitcur).exec_of_byte i s hm hi
  rw [h, mapNext_next, Host.Outcome.next.injEq] at hcomm
  exact (congrArg State.bitcur hcomm).trans (State.setBitcur_bitcur t _)

/-- In Bit mode no command but `SWBYTE` writes `RD`, by the same argument. -/
theorem exec_rd_of_bit (i : Instr) (s t : State) (hm : s.mode = .bit) (hi : i ≠ .swbyte)
    (h : exec i s = .next t) : t.rd = s.rd := by
  have hcomm : exec i s = mapNext (fun t => t.setRd s.rd) (exec i s) :=
    (keepsBitView_setRd s.rd).exec_of_bit i s hm hi
  rw [h, mapNext_next, Host.Outcome.next.injEq] at hcomm
  exact (congrArg State.rd hcomm).trans (State.setRd_rd t _)

/-- `SWBIT` overwrites `BITCUR` without reading it. -/
theorem execSwbit_setBitcur (s : State) (c : Nat) (hm : s.mode = .byte) :
    execSwbit (s.setBitcur c) = execSwbit s := by
  rw [execSwbit_of_byte s hm, execSwbit_of_byte (s.setBitcur c) hm]
  rfl

/-- `SWBYTE` overwrites `RD` without reading it. -/
theorem execSwbyte_setRd (s : State) (r : Nat) (hm : s.mode = .bit) : execSwbyte (s.setRd r) = execSwbyte s := by
  rw [execSwbyte_of_bit s hm, execSwbyte_of_bit (s.setRd r) hm]
  rfl

/-- By how much `SWBYTE` moves the stale `RD` on: the whole bytes and the started one that `BITCUR` is ahead. -/
theorem execSwbyte_rd_lag (s t : State) (hm : s.mode = .bit) (hle : 8 * s.rd ≤ s.bitcur)
    (h : execSwbyte s = .next t) : t.rd = s.rd + (s.bitcur - 8 * s.rd + 7) / 8 := by
  rw [execSwbyte_of_bit s hm] at h
  injection h with h
  have hrd : t.rd = (s.bitcur + 7) >>> 3 := congrArg State.rd h.symm
  rw [hrd, Nat.shiftRight_eq_div_pow]
  omega

/-- Settles O49: overwriting the stale cursor keeps the view of every command that does not take it over. -/
theorem staleCursorIsNotObserved : Obligations.StaleCursorIsNotObserved :=
  ⟨fun i s c hm hi =>
      ⟨(keepsByteView_setBitcur c).exec_of_byte i s hm hi, fun t => exec_bitcur_of_byte i s t hm hi⟩,
    fun s c hm => execSwbit_setBitcur s c hm,
    fun i s r hm hi => ⟨(keepsBitView_setRd r).exec_of_bit i s hm hi, fun t => exec_rd_of_bit i s t hm hi⟩,
    fun s r hm => execSwbyte_setRd s r hm,
    fun s t hm hle h => execSwbyte_rd_lag s t hm hle h⟩

end Sys2Proof.Machine
end

section
/-! The frame of every word (R34). What the unit only reads is the host's side of the state: the buffer's contents, its
two extents and the host's further actions. Every response, every error and every command built of them ends in a
state with the same host's side. -/

namespace Sys2Proof.Machine

/-- The part of the state that no command writes (R15, R34). -/
structure HostSide where
  mem : Memory
  wr : Nat
  cap : Nat
  inputs : List Input

/-- The host's side of a state. -/
def State.hostSide (s : State) : HostSide := ⟨s.mem, s.wr, s.cap, s.inputs⟩

/-- The command ends, in a state with the host's side `h`. -/
def EndsWith (h : HostSide) (r : StepResult) : Prop := ∃ t, r = .next t ∧ t.hostSide = h

/-- A known end state has the host's side. -/
theorem EndsWith.hostSide_eq {h : HostSide} {t : State} (he : EndsWith h (.next t)) : t.hostSide = h := by
  obtain ⟨t', ht, hside⟩ := he
  cases ht
  exact hside

/-- An end state with the same host's side has the same extents, and reads and peeks alike. -/
theorem State.reads_of_hostSide {s t : State} (h : t.hostSide = s.hostSide) :
    t.wr = s.wr ∧ t.cap = s.cap ∧ (∀ a, t.byteAt a = s.byteAt a) ∧ ∀ a, t.peek a = s.peek a := by
  have hwr : t.wr = s.wr := congrArg HostSide.wr h
  have hbyte (a : Nat) : t.byteAt a = s.byteAt a := congrArg (HostSide.mem · |>.read a) h
  exact ⟨hwr, congrArg HostSide.cap h, hbyte, fun a => by rw [State.peek, hwr, hbyte, State.peek]⟩

/-- Consuming a byte leaves the host's side: it moves `RD` alone. -/
theorem State.consume_hostSide {s s₁ : State} {b : Byte} (h : s.consume = some (b, s₁)) :
    s₁.hostSide = s.hostSide := by
  rcases Nat.lt_or_ge s.rd s.wr with hlt | hge
  · cases (s.consume_of_lt hlt).symm.trans h
    rfl
  · cases (s.consume_of_ge hge).symm.trans h

section Frame

variable (s : State)

theorem respondWith_endsWith (v : Int) (out : List Byte) : EndsWith s.hostSide (respondWith v out s) := ⟨_, rfl, rfl⟩

theorem respond_endsWith (v : Int) : EndsWith s.hostSide (respond v s) := ⟨_, rfl, rfl⟩

theorem raise_endsWith (e : ErrorKind) : EndsWith s.hostSide (raise e s) := ⟨_, rfl, rfl⟩

theorem raiseByteFault_endsWith : EndsWith s.hostSide (raiseByteFault s) := ⟨_, rfl, rfl⟩

theorem raiseBitFault_endsWith : EndsWith s.hostSide (raiseBitFault s) := ⟨_, rfl, rfl⟩

theorem raiseMidField_endsWith (w : Nat) : EndsWith s.hostSide (raiseMidField w s) := ⟨_, rfl, rfl⟩

theorem requireMode_endsWith (m : Mode) {body : StepResult} (h : EndsWith s.hostSide body) :
    EndsWith s.hostSide (requireMode m s body) := by
  by_cases hm : s.mode = m
  · rwa [requireMode_of_eq _ _ _ hm]
  · rw [requireMode_of_ne _ _ _ hm]
    exact raise_endsWith s _

theorem fillArray_endsWith (n : Nat) (slots : List Byte → List Byte) :
    EndsWith s.hostSide (fillArray n slots s) := by
  rw [fillArray]
  rcases s.consumeN_cases n with ⟨h, -⟩ | ⟨h, -⟩
  · rw [h]
    exact respondWith_endsWith (s.setRd _) _ _
  · rw [h]
    exact raiseByteFault_endsWith s

theorem fillTransformed_endsWith (xf : XfField) (n : Nat) (layout : List Byte → List Byte) :
    EndsWith s.hostSide (fillTransformed xf n layout s) := by
  cases xf with
  | known x => exact fillArray_endsWith s n _
  | unrecognised c =>
    rw [fillTransformed]
    split
    · exact respondWith_endsWith s 0 []
    · exact raiseMidField_endsWith s 1

/-- What `GETBYTESX` and `GETBYTESRX` do past their mode check, by their transformation (R94, R95). -/
theorem fillByTransformation_endsWith (xf : XfField) (n : Nat) (layout : List Byte → List Byte) :
    EndsWith s.hostSide
      (if xf = .known .none then fillArray n List.reverse s else fillTransformed xf n layout s) := by
  split
  · exact fillArray_endsWith s n _
  · exact fillTransformed_endsWith s xf n layout

theorem readRaw_endsWith (ty : TypeField) (ord : OrdField) (xf : XfField) (result : Nat → Nat → Int) :
    EndsWith s.hostSide (readRaw ty ord xf result s) := by
  rw [readRaw]
  cases rawPlan ty ord xf with
  | reject => exact raise_endsWith s _
  | rejectMidField w => exact raiseMidField_endsWith s w
  | legal t o x =>
    rcases s.consumeN_cases (typeWidth t) with ⟨h, -⟩ | ⟨h, -⟩
    · simp only [h]
      exact respond_endsWith (s.setRd _) _
    · simp only [h]
      exact raiseByteFault_endsWith s

theorem extractBits_endsWith (a : Nat) : EndsWith s.hostSide (extractBits a s) := by
  rw [extractBits]
  split
  · exact raiseBitFault_endsWith s
  · exact respond_endsWith (s.setBitcur _) _

theorem smartShort_endsWith : EndsWith s.hostSide (smartShort s) := by
  rw [smartShort]
  split
  · exact raiseByteFault_endsWith s
  · next v s₁ h => exact State.consume_hostSide h ▸ respond_endsWith s₁ _

theorem smartLong_endsWith : EndsWith s.hostSide (smartLong s) := by
  rw [smartLong]
  split
  · exact raiseByteFault_endsWith s
  · next hi s₁ h₁ =>
    split
    · exact raiseByteFault_endsWith s
    · next lo s₂ h₂ =>
      exact State.consume_hostSide h₁ ▸ State.consume_hostSide h₂ ▸ respond_endsWith s₂ _

theorem execGetsmart_endsWith : EndsWith s.hostSide (execGetsmart s) := by
  refine requireMode_endsWith s .byte ?_
  split
  · exact raiseByteFault_endsWith s
  · split
    · exact smartShort_endsWith s
    · exact smartLong_endsWith s

theorem execGetbits_endsWith (a : BitVec 16) : EndsWith s.hostSide (execGetbits a s) := by
  refine requireMode_endsWith s .bit ?_
  split
  · exact raise_endsWith s _
  · exact extractBits_endsWith s _

theorem execGetstr_endsWith : EndsWith s.hostSide (execGetstr s) := by
  refine requireMode_endsWith s .byte ?_
  rcases s.consumeText_cases with ⟨l, -, -, -, h⟩ | ⟨-, h⟩
  · rw [h]
    exact respondWith_endsWith (s.setRd _) _ _
  · rw [h]
    exact raiseByteFault_endsWith s

theorem execSwbit_endsWith : EndsWith s.hostSide (execSwbit s) := by
  rw [execSwbit]
  split
  · exact respond_endsWith ((s.setBitcur _).setMode _) 0
  · exact respond_endsWith s 0

theorem execSwbyte_endsWith : EndsWith s.hostSide (execSwbyte s) := by
  rw [execSwbyte]
  split
  · exact respond_endsWith ((s.setRd _).setMode _) 0
  · exact respond_endsWith s 0

/-- Every command ends with a response (R115) and leaves the host's side as it was. -/
theorem exec_endsWith (i : Instr) : EndsWith s.hostSide (exec i s) := by
  cases i with
  | swbit => exact execSwbit_endsWith s
  | swbyte => exact execSwbyte_endsWith s
  | getbits a => exact execGetbits_endsWith s a
  | getu t o x => exact requireMode_endsWith s .byte (readRaw_endsWith s t o x _)
  | gets t o x => exact requireMode_endsWith s .byte (readRaw_endsWith s t o x _)
  | getsmart => exact execGetsmart_endsWith s
  | getbytes n => exact requireMode_endsWith s .byte (fillArray_endsWith s _ _)
  | getbytesr n => exact requireMode_endsWith s .byte (fillArray_endsWith s _ _)
  | getbytesx x n => exact requireMode_endsWith s .byte (fillByTransformation_endsWith s x _ _)
  | getbytesrx x n => exact requireMode_endsWith s .byte (fillByTransformation_endsWith s x _ _)
  | getstr => exact execGetstr_endsWith s
  | getlen => exact requireMode_endsWith s .byte (respond_endsWith s _)
  | getrlen => exact requireMode_endsWith s .byte (respond_endsWith s _)

/-- So does every word: an illegal one only raises `InvalidArgumentError` (R56). -/
theorem runWord_endsWith (w : CmdWord) : EndsWith s.hostSide (runWord w s) := by
  rw [runWord]
  cases decode w with
  | command i => exact exec_endsWith s i
  | illegal why => exact raise_endsWith s _

end Frame

/-- Settles O47: every word leaves the host's side as it was, and peeks go through the host's side alone. -/
theorem unitNeverWritesTheBuffer : Obligations.UnitNeverWritesTheBuffer := fun w s _ h =>
  State.reads_of_hostSide (EndsWith.hostSide_eq (h ▸ runWord_endsWith s w))

end Sys2Proof.Machine
end

section
/-! The illegal words (R54, R56). `ReservedWord` speaks of the `OP` code and the decoder of the operation it selects:
the lemmas here say, code by code, which operations there are and which fields each of them uses, and with them a word
is a command exactly when it is not reserved. -/

namespace Sys2Proof

/-- The codes that select no operation (R49). -/
theorem Op.ofCode_eq_none_iff (c : BitVec 4) : Op.ofCode c = none ↔ c = 0x0 ∨ c = 0xE ∨ c = 0xF := by
  decide +revert

/-- The operations that use `TYPE` and `ORD`, by code (R54). -/
theorem Op.usesTypeOrd_iff (o : Op) : o.usesTypeOrd = true ↔ o.code = 0x4 ∨ o.code = 0x5 := by
  cases o <;> decide

/-- The operations that use `XF`, by code (R54). -/
theorem Op.usesXf_iff (o : Op) :
    o.usesXf = true ↔ o.code = 0x4 ∨ o.code = 0x5 ∨ o.code = 0x9 ∨ o.code = 0xA := by
  cases o <;> decide

/-- The operations that use `IMM`, by code (R54). -/
theorem Op.usesImm_iff (o : Op) :
    o.usesImm = true ↔ o.code = 0x3 ∨ o.code = 0x7 ∨ o.code = 0x8 ∨ o.code = 0x9 ∨ o.code = 0xA := by
  cases o <;> decide

/-- No operation has a reserved code (R49). -/
theorem Op.code_not_reserved (o : Op) : ¬ (o.code = 0x0 ∨ o.code = 0xE ∨ o.code = 0xF) := by
  rw [← Op.ofCode_eq_none_iff, Op.ofCode_code]
  exact Option.some_ne_none o

/-- The unused fields of an operation are 0, said of its code (R54). -/
theorem unusedFieldsZero_iff (o : Op) (f : WordFields) :
    unusedFieldsZero o f = true ↔
      ((o.code = 0x4 ∨ o.code = 0x5) ∨ f.ty = 0 ∧ f.ord = 0) ∧
      ((o.code = 0x4 ∨ o.code = 0x5 ∨ o.code = 0x9 ∨ o.code = 0xA) ∨ f.xf = 0) ∧
      ((o.code = 0x3 ∨ o.code = 0x7 ∨ o.code = 0x8 ∨ o.code = 0x9 ∨ o.code = 0xA) ∨ f.imm = 0) := by
  simp only [unusedFieldsZero, Bool.and_eq_true, Bool.or_eq_true, beq_iff_eq, Op.usesTypeOrd_iff, Op.usesXf_iff,
    Op.usesImm_iff, and_assoc]

/-- An operation whose code, reserved bits and unused fields are in order makes a command of the fields (R58). -/
theorem decodeFields_of_code (o : Op) (f : WordFields) (ho : o.code = f.op) (hr : f.rsv = 0)
    (hu : unusedFieldsZero o f = true) : decodeFields f = .command (buildInstr o f) := by
  rw [decodeFields, ← ho, Op.ofCode_code]
  simp [hr, hu]

/-- A word whose `OP` selects the operation `o` is reserved exactly when one of the decoder's two further checks fails:
the causes of R56 beside the reserved `OP`. -/
theorem reservedWord_iff_of_code (o : Op) (w : CmdWord) (ho : o.code = (splitWord w).op) :
    ReservedWord w ↔ ¬ ((splitWord w).rsv = 0 ∧ unusedFieldsZero o (splitWord w) = true) := by
  rw [ReservedWord]
  generalize splitWord w = f at ho ⊢
  have hop := ho ▸ o.code_not_reserved
  rw [unusedFieldsZero_iff, ho, or_iff_right hop]
  simp only [not_and_or, not_or, and_assoc, ne_eq]

/-- A reserved word is illegal. -/
theorem decode_of_reserved (w : CmdWord) (h : ReservedWord w) : ∃ why, decode w = .illegal why := by
  obtain hwhy | ⟨o, ho, hr, hu, -⟩ := decodeFields_cases (splitWord w)
  · exact hwhy
  · exact absurd ⟨hr, hu⟩ ((reservedWord_iff_of_code o w ho).1 h)

/-- A word that is not reserved is a command. -/
theorem decode_of_not_reserved (w : CmdWord) (h : ¬ ReservedWord w) : ∃ i, decode w = .command i := by
  cases hc : Op.ofCode (splitWord w).op with
  | none => exact absurd (.inl ((Op.ofCode_eq_none_iff _).1 hc)) h
  | some o =>
    have ho := Op.code_of_ofCode _ o hc
    obtain ⟨hr, hu⟩ := not_not.1 (mt (reservedWord_iff_of_code o w ho).2 h)
    exact ⟨_, decodeFields_of_code o _ ho hr hu⟩

namespace Machine

/-- The one operation that takes an error touches the response and the draw counter only (R108). -/
theorem raise_failsPrecisely (e : ErrorKind) (s : State) : FailsPrecisely e s (raise e s) := ⟨_, rfl, rfl⟩

/-- An illegal word raises `InvalidArgumentError`, in either mode (R56). -/
theorem runWord_of_illegal (w : CmdWord) (s : State) (why : Illegal) (h : decode w = .illegal why) :
    runWord w s = raise .invalidArgument s := by
  rw [runWord, h, execIllegal]

/-- Settles O5: a word is illegal exactly when it is reserved, and an illegal word only raises the error. -/
theorem reservedWordsAreIllegal : Obligations.ReservedWordsAreIllegal := by
  refine ⟨fun w s h => ?_, decode_of_not_reserved, .inl (.inl (by decide)), .inl (.inr (.inr (by decide)))⟩
  obtain ⟨why, hwhy⟩ := decode_of_reserved w h
  rw [runWord_of_illegal w s why hwhy]
  exact raise_failsPrecisely .invalidArgument s

end Machine

end Sys2Proof
end

section
/-! The two switches (R64, R65): the whole next state of each in each mode, and the first `GETBITS` after a `SWBIT` that
found nothing left to read. -/

namespace Sys2Proof.Machine

/-- `SWBIT` in Byte mode takes the cursor over from `RD` (R64). -/
theorem exec_swbit_of_byte (s : State) (hm : s.mode = .byte) :
    exec .swbit s = .next { s with mode := .bit, bitcur := s.rd * 8, rsp := okResponse 0 [] } :=
  execSwbit_of_byte s hm

/-- `SWBIT` in Bit mode only answers (R64). -/
theorem exec_swbit_of_bit (s : State) (hm : s.mode = .bit) :
    exec .swbit s = .next { s with rsp := okResponse 0 [] } :=
  execSwbit_of_bit s hm

/-- `SWBYTE` in Bit mode takes the cursor over from `BITCUR`, rounded up (R65). -/
theorem exec_swbyte_of_bit (s : State) (hm : s.mode = .bit) :
    exec .swbyte s = .next { s with mode := .byte, rd := (s.bitcur + 7) / 8, rsp := okResponse 0 [] } := by
  rw [← Nat.shiftRight_eq_div_pow _ 3]
  exact execSwbyte_of_bit s hm

/-- `SWBYTE` in Byte mode only answers (R65). -/
theorem exec_swbyte_of_byte (s : State) (hm : s.mode = .byte) :
    exec .swbyte s = .next { s with rsp := okResponse 0 [] } :=
  execSwbyte_of_byte s hm

/-- The two fields of a `SWBYTE`'s next state that R65 relates: the new `RD`, and `WR`, which stays. -/
theorem exec_swbyte_rd_wr (s t : State) (hm : s.mode = .bit) (h : exec .swbyte s = .next t) :
    t.rd = (s.bitcur + 7) / 8 ∧ t.wr = s.wr := by
  rw [exec_swbyte_of_bit s hm] at h
  cases h
  exact ⟨rfl, rfl⟩

/-- A raised error is the status of the response (R108). -/
theorem answers_raise (e : ErrorKind) (s : State) : Answers (.error e) (raise e s) := ⟨_, _, rfl, rfl, rfl⟩

/-- A bit run of at least one bit touches at least one byte (R40). -/
theorem spanBytes_pos (c a : Nat) (ha : 1 ≤ a) : 0 < spanBytes c a := by
  simp only [spanBytes, Nat.shiftRight_eq_div_pow]
  omega

/-- The first byte past the run of `a` bits from `c` (R40): the run's end, rounded up to a whole byte. -/
theorem firstByte_add_spanBytes (c a : Nat) (ha : 1 ≤ a) : firstByte c + spanBytes c a = (c + a + 7) / 8 := by
  simp only [firstByte, spanBytes, Nat.shiftRight_eq_div_pow]
  omega

/-- A bit run that ends past the readable bits has its peeks refused (R67). -/
theorem extractBits_of_gt (a : Nat) (s : State) (ha : 1 ≤ a) (h : 8 * s.wr < s.bitcur + a) :
    extractBits a s = raiseBitFault s := by
  have hend := firstByte_add_spanBytes s.bitcur a ha
  rw [extractBits, State.peekN_of_gt _ _ s (spanBytes_pos s.bitcur a ha) (by omega)]

/-- `GETBITS` with its mode and its amount in order extracts (R67, R70). -/
theorem exec_getbits_of_amount (a : BitVec 16) (s : State) (hm : s.mode = .bit) (h1 : 1 ≤ a.toNat)
    (h32 : a.toNat ≤ 32) : exec (.getbits a) s = extractBits a.toNat s :=
  (requireMode_of_eq .bit s _ hm).trans (if_neg (by omega))

/-- `GETBITS` of an amount in order past the readable bits answers `BufferFault`, from any `BITCUR` (R67). -/
theorem exec_getbits_answers_bufferFault (a : BitVec 16) (s : State) (hm : s.mode = .bit) (h1 : 1 ≤ a.toNat)
    (h32 : a.toNat ≤ 32) (h : 8 * s.wr < s.bitcur + a.toNat) :
    Answers (.error .bufferFault) (exec (.getbits a) s) := by
  rw [exec_getbits_of_amount a s hm h1 h32, extractBits_of_gt _ s h1 h]
  exact answers_raise _ _

/-- Settles O12: from `RD = WR` the cursor that `SWBIT` loads is the end of the readable bits, so any run from it is too
long. -/
theorem swbitEntersBitMode : Obligations.SwbitEntersBitMode := by
  refine ⟨by decide, exec_swbit_of_byte, exec_swbit_of_bit, fun s a hm hrd h1 h32 => ?_⟩
  rw [exec_swbit_of_byte s hm]
  refine exec_getbits_answers_bufferFault a _ rfl h1 h32 ?_
  show 8 * s.wr < s.rd * 8 + a.toNat
  omega

/-- Settles O13: the clauses on the new `RD` are the ceiling `(BITCUR + 7) / 8` from an aligned cursor, from any other,
and under the bound `BITCUR <= 8 * WR` of the invariant. -/
theorem swbyteReturnsToTheNextByte : Obligations.SwbyteReturnsToTheNextByte := by
  refine ⟨by decide, exec_swbyte_of_bit, exec_swbyte_of_byte, fun s t hm hal h => ?_, fun s t hm hun h => ?_,
    fun s t hm hinv h => ?_⟩ <;> obtain ⟨hrd, hwr⟩ := exec_swbyte_rd_wr s t hm h
  · omega
  · omega
  · have hle := hinv.bitcur_le
    omega

end Sys2Proof.Machine
end

section
/-! `GETBITS` (R67 to R72). The loop of R67 over the bytes the run touches is the closed form of R68: a run is cut at
the byte boundaries, and inside one byte it is a slice of that byte. What `RES` holds of the run (R69) is the sign
extension of its 32-bit pattern. -/

namespace Sys2Proof.Machine

/-- The model's sum is the library's. -/
theorem sumTo_eq_sum (f : Nat → Nat) (n : Nat) : sumTo f n = ∑ j ∈ Finset.range n, f j := by
  induction n with
  | zero => rfl
  | succ n ih => rw [sumTo, ih, Finset.sum_range_succ]

/-- A stream bit is one bit (R35). -/
theorem State.streamBit_lt (s : State) (k : Nat) : s.streamBit k < 2 := by
  rw [State.streamBit, Nat.and_one_is_mod]
  exact Nat.mod_lt _ (by decide)

/-- Stream bit `off` of the byte `i` is the bit `7 - off` of its value (R35). -/
theorem State.streamBit_of_byte (s : State) (i off : Nat) (h : off < 8) :
    s.streamBit (8 * i + off) = (s.byteAt i).toNat / 2 ^ (7 - off) % 2 := by
  have hi : (8 * i + off) >>> 3 = i := by
    rw [Nat.shiftRight_eq_div_pow]
    omega
  have ho : (8 * i + off) &&& 7 = off := by
    rw [Nat.and_two_pow_sub_one_eq_mod _ 3]
    omega
  rw [State.streamBit, hi, ho, Nat.and_one_is_mod, Nat.shiftRight_eq_div_pow]

/-- The run of no bits is 0 (R68). -/
@[simp] theorem State.bitRun_zero (s : State) (c : Nat) : s.bitRun c 0 = 0 := rfl

/-- One more bit shifts the run up and comes in below it (R68). -/
theorem State.bitRun_succ (s : State) (c n : Nat) :
    s.bitRun c (n + 1) = s.bitRun c n * 2 + s.streamBit (c + n) := by
  simp only [State.bitRun, sumTo_eq_sum, Finset.sum_range_succ, Finset.sum_mul]
  congr 1
  · refine Finset.sum_congr rfl fun j hj => ?_
    have hlt := Finset.mem_range.1 hj
    rw [mul_assoc, ← Nat.pow_succ]
    congr 2
    omega
  · simp

/-- The run of one bit is that bit. -/
theorem State.bitRun_one (s : State) (c : Nat) : s.bitRun c 1 = s.streamBit c := by
  simp [State.bitRun_succ]

/-- A run of `n` bits is an `n`-bit value. -/
theorem State.bitRun_lt (s : State) (c n : Nat) : s.bitRun c n < 2 ^ n := by
  induction n with
  | zero => exact Nat.one_pos
  | succ n ih =>
    have hbit := s.streamBit_lt (c + n)
    rw [State.bitRun_succ, Nat.pow_succ]
    omega

/-- A run cut in two: the first piece stands above the second. -/
theorem State.bitRun_add (s : State) (c m n : Nat) :
    s.bitRun c (m + n) = s.bitRun c m * 2 ^ n + s.bitRun (c + m) n := by
  induction n with
  | zero => simp
  | succ n ih =>
    rw [← Nat.add_assoc, State.bitRun_succ, State.bitRun_succ, ih, Nat.add_assoc]
    ring

/-- The mask of `k` bits keeps the value mod `2^k` (R71). -/
theorem and_bitMask (x k : Nat) : x &&& bitMask k = x % 2 ^ k := Nat.and_two_pow_sub_one_eq_mod x k

/-- A run inside one byte is a slice of that byte. -/
theorem State.bitRun_of_byte (s : State) (i off a : Nat) (h : off + a ≤ 8) :
    s.bitRun (8 * i + off) a = (s.byteAt i).toNat >>> (8 - off - a) &&& bitMask a := by
  rw [and_bitMask, Nat.shiftRight_eq_div_pow]
  induction a with
  | zero => simp [Nat.mod_one]
  | succ a ih =>
    have hlow : 8 - off - (a + 1) = 7 - (off + a) := by omega
    have hhigh : 8 - off - a = 7 - (off + a) + 1 := by omega
    rw [State.bitRun_succ, ih (by omega), Nat.add_assoc, s.streamBit_of_byte i (off + a) (by omega), hlow, hhigh,
      Nat.pow_succ 2 a, Nat.mul_comm (2 ^ a) 2, Nat.mod_mul, Nat.pow_succ, Nat.div_div_eq_div_mul]
    omega

/-- The extraction loop of R67 over enough bytes answers the run. -/
theorem gatherBits_eq_bitRun (s : State) (n a i off : Nat) (hoff : off ≤ 8) (h : off + a ≤ 8 * n) :
    gatherBits a (8 - off) ((List.range n).map fun k => s.byteAt (i + k)) = s.bitRun (8 * i + off) a := by
  induction n generalizing a i off with
  | zero =>
    obtain rfl : a = 0 := by omega
    rfl
  | succ n ih =>
    have hbytes : (List.range (n + 1)).map (fun k => s.byteAt (i + k)) =
        s.byteAt i :: (List.range n).map fun k => s.byteAt (i + 1 + k) := by
      simp [List.range_succ_eq_map, Function.comp_def, Nat.add_assoc, Nat.add_comm 1]
    rw [hbytes, gatherBits]
    rcases Nat.lt_trichotomy a (8 - off) with hlt | heq | hgt
    · rw [if_neg (by omega), if_neg (by omega), s.bitRun_of_byte i off a (by omega)]
    · rw [if_neg (by omega), if_pos heq, s.bitRun_of_byte i off a (by omega), ← heq, Nat.sub_self,
        Nat.shiftRight_zero]
    · have hrest := ih (a - (8 - off)) (i + 1) 0 (by omega) (by omega)
      have hfirst := s.bitRun_of_byte i off (8 - off) (by omega)
      have hcut := s.bitRun_add (8 * i + off) (8 - off) (a - (8 - off))
      rw [Nat.sub_self, Nat.shiftRight_zero] at hfirst
      rw [Nat.add_sub_cancel' (by omega), show 8 * i + off + (8 - off) = 8 * (i + 1) + 0 by omega, hfirst,
        ← hrest] at hcut
      rw [if_pos hgt, Nat.shiftLeft_eq, hcut]

/-- The cursor is the first byte's index and the bit's place in it. -/
theorem firstByte_add_low (c : Nat) : 8 * firstByte c + (c &&& 7) = c := by
  rw [firstByte, Nat.and_two_pow_sub_one_eq_mod _ 3, Nat.shiftRight_eq_div_pow]
  omega

/-- A readable run is extracted: the bits of R68 in the container of R69, and the cursor moves past them (R67). -/
theorem extractBits_of_le (a : Nat) (s : State) (ha : 1 ≤ a) (h : s.bitcur + a ≤ 8 * s.wr) :
    extractBits a s = .next { s with
      bitcur := s.bitcur + a, rsp := okResponse (sext 32 (s.bitRun s.bitcur a)) [] } := by
  have hend := firstByte_add_spanBytes s.bitcur a ha
  have hcur := firstByte_add_low s.bitcur
  have hlow : s.bitcur &&& 7 ≤ 7 := Nat.and_le_right
  have hrun := gatherBits_eq_bitRun s (spanBytes s.bitcur a) a (firstByte s.bitcur) (s.bitcur &&& 7) (by omega)
    (by omega)
  rw [extractBits, State.peekN_of_le _ _ s (by omega)]
  simp only [hrun, hcur]
  rfl

/-- `GETBITS` of an amount in order within the readable bits answers the run (R67). -/
theorem exec_getbits_of_le (a : BitVec 16) (s : State) (hm : s.mode = .bit) (h1 : 1 ≤ a.toNat) (h32 : a.toNat ≤ 32)
    (h : s.bitcur + a.toNat ≤ 8 * s.wr) :
    exec (.getbits a) s = .next { s with
      bitcur := s.bitcur + a.toNat, rsp := okResponse (sext 32 (s.bitRun s.bitcur a.toNat)) [] } :=
  (exec_getbits_of_amount a s hm h1 h32).trans (extractBits_of_le a.toNat s h1 h)

/-- `GETBITS` in Byte mode fails its mode check, whatever its amount (R67). -/
theorem exec_getbits_of_byte (a : BitVec 16) (s : State) (hm : s.mode = .byte) :
    FailsPrecisely .invalidMode s (exec (.getbits a) s) := by
  rw [exec_of_wrongMode _ s (.inr ⟨rfl, hm⟩)]
  exact raise_failsPrecisely _ s

/-- `GETBITS` past its mode check rejects an amount outside 1 to 32 (R70). -/
theorem exec_getbits_of_badAmount (a : BitVec 16) (s : State) (hm : s.mode = .bit)
    (ha : a.toNat < 1 ∨ 32 < a.toNat) : FailsPrecisely .invalidArgument s (exec (.getbits a) s) := by
  have hraise : exec (.getbits a) s = raise .invalidArgument s := (requireMode_of_eq .bit s _ hm).trans (if_pos ha)
  rw [hraise]
  exact raise_failsPrecisely _ s

/-- A `BufferFault` in Bit mode draws `BITCUR` from its range (R105). -/
theorem raiseBitFault_failsWith (s : State) (h : s.bitcur ≤ 8 * s.wr) :
    FailsWithBitcurUpTo (8 * s.wr) .bufferFault s (raiseBitFault s) :=
  ⟨_, _, rfl, s.drawIn_ge _ _, s.drawIn_le _ _ h, rfl⟩

/-- The word of `GETBITS`: its code and the amount (R67). -/
theorem encode_getbits (a : BitVec 16) : encode (.getbits a) = 0x30000000 ||| a.setWidth 32 := by
  simp [encode, Instr.fields, joinWord, Op.code]

/-- Settles O16: the checks of `GETBITS` in their order, and the closed form of the loop. -/
theorem getbitsAnswersTheBitRun : Obligations.GetbitsAnswersTheBitRun := by
  refine ⟨encode_getbits, fun s a => exec_getbits_of_byte a s, fun s a => exec_getbits_of_badAmount a s,
    fun s a hm h1 h32 hle hgt => ?_, fun s a => exec_getbits_of_le a s⟩
  rw [exec_getbits_of_amount a s hm h1 h32, extractBits_of_gt _ s h1 hgt]
  exact raiseBitFault_failsWith s hle

/-- A value below the sign bit is its own container (R9). -/
theorem sext_of_lt (n v : Nat) (h : v < 2 ^ (n - 1)) : sext n v = v := if_pos h

/-- `sext` reads an `n`-bit pattern as the library does (R9). -/
theorem sext_eq_toInt (n v : Nat) (hn : 0 < n) (hv : v < 2 ^ n) : sext n v = (BitVec.ofNat n v).toInt := by
  obtain ⟨m, rfl⟩ := Nat.exists_eq_succ_of_ne_zero hn.ne'
  have hhalf : 2 * v < 2 ^ (m + 1) ↔ v < 2 ^ m := by
    rw [Nat.pow_succ]
    omega
  rw [BitVec.toInt_eq_toNat_cond, BitVec.toNat_ofNat, Nat.mod_eq_of_lt hv, if_congr hhalf rfl rfl, sext, Nat.cast_pow]
  rfl

/-- `RES` of a signed 32-bit container is the sign extension of the pattern (R69). -/
theorem ofInt_sext_eq_signExtend (v : Nat) (hv : v < 2 ^ 32) :
    BitVec.ofInt 64 (sext 32 v) = (BitVec.ofNat 32 v).signExtend 64 := by
  rw [sext_eq_toInt 32 v (by decide) hv, BitVec.signExtend]

/-- `RES[31:0]` of the container is the pattern (R69). -/
theorem extractLsb'_ofInt_sext (v : Nat) (hv : v < 2 ^ 32) :
    (BitVec.ofInt 64 (sext 32 v)).extractLsb' 0 32 = BitVec.ofNat 32 v := by
  rw [ofInt_sext_eq_signExtend v hv]
  ext k hk
  rw [BitVec.getElem_extractLsb', Nat.zero_add, BitVec.getLsbD_signExtend, if_pos hk, BitVec.getLsbD_eq_getElem hk,
    decide_eq_true (hk.trans (by decide : 32 < 64)), Bool.true_and]

/-- `RES[63:32]` of the container copies bit 31 of the pattern (R69). -/
theorem getLsbD_ofInt_sext (v k : Nat) (hv : v < 2 ^ 32) (h32 : 32 ≤ k) (h64 : k < 64) :
    (BitVec.ofInt 64 (sext 32 v)).getLsbD k = v.testBit 31 := by
  rw [ofInt_sext_eq_signExtend v hv, BitVec.getLsbD_signExtend, if_neg (by omega), BitVec.msb_eq_getLsbD_last,
    BitVec.getLsbD_ofNat]
  simp [h64]

/-- The container of a 32-bit pattern fits `RES` (R69). -/
theorem toInt_ofInt_sext (v : Nat) (hv : v < 2 ^ 32) : (BitVec.ofInt 64 (sext 32 v)).toInt = sext 32 v := by
  rw [ofInt_sext_eq_signExtend v hv, BitVec.toInt_signExtend_of_le (by decide), sext_eq_toInt 32 v (by decide) hv]

/-- Settles O17: the run is below `2^amount`, so it is a 32-bit pattern, and a non-negative one for `amount <= 31`. -/
theorem getbitsContainer : Obligations.GetbitsContainer := by
  intro s a hm h1 h32 hle
  have hrun := s.bitRun_lt s.bitcur a.toNat
  have hv : s.bitRun s.bitcur a.toNat < 2 ^ 32 := hrun.trans_le (Nat.pow_le_pow_right (by decide) h32)
  refine ⟨_, _, _, exec_getbits_of_le a s hm h1 h32 hle, rfl, rfl, rfl, hrun, extractLsb'_ofInt_sext _ hv,
    fun k => getLsbD_ofInt_sext _ k hv, fun h31 => ?_, fun _ => toInt_ofInt_sext _ hv⟩
  have hsmall := hrun.trans_le (Nat.pow_le_pow_right (by decide) h31)
  exact (toInt_ofInt_sext _ hv).trans (sext_of_lt 32 _ hsmall)

/-- A command answers one status (R23). -/
theorem Answers.unique {st st' : Status} {r : StepResult} (h : Answers st r) (h' : Answers st' r) : st = st' := by
  obtain ⟨t, rsp, rfl, hrsp, rfl⟩ := h
  obtain ⟨t', rsp', ht, hrsp', rfl⟩ := h'
  cases ht
  cases hrsp.symm.trans hrsp'
  rfl

/-- `GETBITS` of an amount in order within the readable bits answers OK (R67). -/
theorem exec_getbits_answers_ok (a : BitVec 16) (s : State) (hm : s.mode = .bit) (h1 : 1 ≤ a.toNat)
    (h32 : a.toNat ≤ 32) (h : s.bitcur + a.toNat ≤ 8 * s.wr) : Answers .ok (exec (.getbits a) s) :=
  ⟨_, _, exec_getbits_of_le a s hm h1 h32 h, rfl, rfl⟩

/-- Settles O18: with its amount in order `GETBITS` answers OK or `BufferFault`, by the extent. -/
theorem getbitsAmountRange : Obligations.GetbitsAmountRange := by
  refine fun s a => ⟨exec_getbits_of_byte a s, fun hm ha => exec_getbits_of_badAmount a s hm (by omega),
    fun hm h1 h32 harg => ?_⟩
  rcases Nat.lt_or_ge (8 * s.wr) (s.bitcur + a.toNat) with hgt | hle
  · cases harg.unique (exec_getbits_answers_bufferFault a s hm h1 h32 hgt)
  · cases harg.unique (exec_getbits_answers_ok a s hm h1 h32 hle)

/-- Settles O19: the run of one bit is the next stream bit, and its container is the bit itself. -/
theorem getbitReadsOneBit : Obligations.GetbitReadsOneBit := by
  refine ⟨by decide, rfl, fun s hm hlt => ?_⟩
  have hbit := s.streamBit_lt s.bitcur
  have hexec : exec Instr.getbit s = .next { s with
      bitcur := s.bitcur + 1, rsp := okResponse (sext 32 (s.bitRun s.bitcur 1)) [] } :=
    exec_getbits_of_le 1 s hm (by decide) (by decide) hlt
  rw [State.bitRun_one, sext_of_lt 32 _ (hbit.trans (by decide))] at hexec
  exact ⟨hexec, by omega⟩

end Sys2Proof.Machine
end

section
/-! The fixed-width reads (R75 to R85). A value is the sum of its bytes, each in its own place: the placement of R80
only reorders the stream bytes, and the transformation of R76 works on the byte in place 0 alone (R79). `GETU` and
`GETS` are one read and differ in the result integer they make of that value. -/

namespace Sys2Proof.Machine

/-- The formulas of R76, before the result is masked to a byte. -/
def transformInt (x : DataTransformation) (r : Int) : Int :=
  match x with
  | .none => r
  | .add => r - 128
  | .subtract => 128 - r
  | .negate => 0 - r

/-- Each formula respects the masking: bytes that agree mod 256 have transformations that do. -/
theorem transformInt_emod_congr (x : DataTransformation) {a b : Int} (h : a % 256 = b % 256) :
    transformInt x a % 256 = transformInt x b % 256 := by
  cases x <;> simp only [transformInt] <;> omega

/-- The model's transformation is the formula on the unsigned byte (R76). -/
theorem toNat_transformByte (x : DataTransformation) (r : Byte) :
    ((transformByte x r).toNat : Int) = transformInt x r.toNat % 256 := by
  have h128 : (128 : Byte).toNat = 128 := rfl
  have hr := r.isLt
  cases x <;> simp only [transformByte, transformInt, BitVec.toNat_sub, BitVec.toNat_neg, h128] <;> omega

/-- The model's transformation is the formula on the signed byte (R76). -/
theorem toNat_transformByte_signed (x : DataTransformation) (r : Byte) :
    ((transformByte x r).toNat : Int) = transformInt x r.toInt % 256 := by
  have hmod : (r.toNat : Int) % 256 = r.toInt % 256 := by
    rw [BitVec.toInt_eq_toNat_cond]
    split <;> omega
  rw [toNat_transformByte, transformInt_emod_congr x hmod]

/-- A byte below a multiple of 256 is its low eight bits, and leaves the rest. -/
theorem byte_add_of_dvd (c : Byte) {m : Nat} (h : 256 ∣ m) :
    (c.toNat + m) % 256 = c.toNat ∧ (c.toNat + m) / 256 = m / 256 := by
  have hc := c.isLt
  omega

/-- Bytes that all stand above the low one sum to a multiple of 256. -/
theorem dvd_sumTo_shiftLeft (c : Nat → Byte) (place : Nat → Nat) (n : Nat) (h : ∀ k < n, 1 ≤ place k) :
    256 ∣ sumTo (fun k => (c k).toNat <<< (8 * place k)) n := by
  rw [sumTo_eq_sum]
  refine Finset.dvd_sum fun k hk => ?_
  have hplace := h k (Finset.mem_range.1 hk)
  rw [Nat.shiftLeft_eq]
  exact (pow_dvd_pow 2 (by omega : 8 ≤ 8 * place k)).mul_left _

/-- Under `BIG` the last byte read is the low one, transformed, and the rest does not depend on the transformation. -/
theorem assemble_big_low (x : DataTransformation) (w : Nat) (b : Nat → Byte) :
    assemble .big x w b % 256 = (transformByte x (b (w - 1))).toNat ∧
      assemble .big x w b / 256 = assemble .big .none w b / 256 := by
  have hdvd := dvd_sumTo_shiftLeft b (fun k => w - 1 - k) (w - 1) fun k hk => by omega
  obtain ⟨hlow, hhigh⟩ := byte_add_of_dvd (transformByte x (b (w - 1))) hdvd
  exact ⟨hlow, hhigh.trans (byte_add_of_dvd (b (w - 1)) hdvd).2.symm⟩

/-- Under `LITTLE` the first byte read is the low one, transformed, and the rest does not depend on the
transformation. -/
theorem assemble_little_low (x : DataTransformation) (w : Nat) (b : Nat → Byte) :
    assemble .little x w b % 256 = (transformByte x (b 0)).toNat ∧
      assemble .little x w b / 256 = assemble .little .none w b / 256 := by
  have hdvd := dvd_sumTo_shiftLeft (fun k => b (k + 1)) (fun k => k + 1) (w - 1) fun k _ => Nat.succ_pos k
  obtain ⟨hlow, hhigh⟩ := byte_add_of_dvd (transformByte x (b 0)) hdvd
  exact ⟨hlow, hhigh.trans (byte_add_of_dvd (b 0) hdvd).2.symm⟩

/-- Four bytes in four places, joined by `or`, are their sum. -/
theorem or_bytes (a b c d : Byte) :
    a.toNat <<< 24 ||| b.toNat <<< 16 ||| c.toNat <<< 8 ||| d.toNat =
      d.toNat + c.toNat * 2 ^ 8 + b.toNat * 2 ^ 16 + a.toNat * 2 ^ 24 := by
  have ha := a.isLt
  have hb := b.isLt
  have hc := c.isLt
  have hd := d.isLt
  have h₁ : a.toNat <<< 24 ||| b.toNat <<< 16 = (a.toNat <<< 8 + b.toNat) <<< 16 := by
    rw [Nat.shiftLeft_add_eq_or_of_lt hb, Nat.shiftLeft_or_distrib, ← Nat.shiftLeft_add]
  have h₂ : (a.toNat <<< 8 + b.toNat) <<< 16 ||| c.toNat <<< 8 =
      ((a.toNat <<< 8 + b.toNat) <<< 8 + c.toNat) <<< 8 := by
    rw [Nat.shiftLeft_add_eq_or_of_lt hc, Nat.shiftLeft_or_distrib, ← Nat.shiftLeft_add]
  rw [h₁, h₂, ← Nat.shiftLeft_add_eq_or_of_lt hd]
  simp only [Nat.shiftLeft_eq]
  omega

/-- The bytes of the middle order, by their places (R80). -/
theorem assemble_middle (x : DataTransformation) (w : Nat) (b : Nat → Byte) :
    assemble .middle x w b =
      (b 1).toNat + (b 0).toNat * 2 ^ 8 + (b 3).toNat * 2 ^ 16 + (b 2).toNat * 2 ^ 24 := by
  rw [← or_bytes, assemble, Nat.or_assoc, Nat.or_comm, Nat.or_assoc (_ ||| _)]

/-- The bytes of the inversed middle order, by their places (R80). -/
theorem assemble_inversedMiddle (x : DataTransformation) (w : Nat) (b : Nat → Byte) :
    assemble .inversedMiddle x w b =
      (b 2).toNat + (b 3).toNat * 2 ^ 8 + (b 0).toNat * 2 ^ 16 + (b 1).toNat * 2 ^ 24 := by
  rw [← or_bytes, assemble, Nat.or_comm ((b 0).toNat <<< 16), Nat.or_right_comm]

/-- Settles O25: the low byte stands below a multiple of 256 that no transformation touches. -/
theorem transformationTouchesTheLowByteOnly : Obligations.TransformationTouchesTheLowByteOnly := by
  intro t x b
  obtain ⟨hbig, hbig'⟩ := assemble_big_low x (typeWidth t) b
  obtain ⟨hlittle, hlittle'⟩ := assemble_little_low x (typeWidth t) b
  refine ⟨hbig, hbig', hlittle, hlittle', ?_, ?_⟩
  · have hlow := (b 1).isLt
    rw [assemble_middle]
    omega
  · have hlow := (b 2).isLt
    rw [assemble_inversedMiddle]
    omega

/-- The placement table keeps the bytes of a field inside it, for every width its order is legal with (R80). -/
theorem bytePlace_lt (o : DataOrder) (w : Nat) (hw : isMiddleOrder o = true → w = 4) (k : Nat) (hk : k < w) :
    bytePlace o w k < w := by
  cases o with
  | big => simp only [bytePlace]; omega
  | little => exact hk
  | middle | inversedMiddle => obtain rfl := hw rfl; decide +revert

/-- The placement table is its own inverse: the byte in place `k` is read `bytePlace o w k`-th (R80). -/
theorem bytePlace_bytePlace (o : DataOrder) (w : Nat) (hw : isMiddleOrder o = true → w = 4) (k : Nat) (hk : k < w) :
    bytePlace o w (bytePlace o w k) = k := by
  cases o with
  | big => simp only [bytePlace]; omega
  | little => rfl
  | middle | inversedMiddle => obtain rfl := hw rfl; decide +revert

/-- Byte `j` of a field's value, counted from the low end: the stream byte in that place, transformed in place 0. -/
def placedByte (o : DataOrder) (x : DataTransformation) (w : Nat) (b : Nat → Byte) (j : Nat) : Byte :=
  if j = 0 then transformByte x (b (bytePlace o w j)) else b (bytePlace o w j)

/-- A field's value by its own bytes: the placement table only reorders the sum (R80). -/
theorem placedValue_eq_sum (o : DataOrder) (x : DataTransformation) (w : Nat) (b : Nat → Byte)
    (hw : isMiddleOrder o = true → w = 4) :
    placedValue o x w b = ∑ j ∈ Finset.range w, (placedByte o x w b j).toNat * 2 ^ (8 * j) := by
  have hlt (k : Nat) (hk : k ∈ Finset.range w) : bytePlace o w k ∈ Finset.range w :=
    Finset.mem_range.2 (bytePlace_lt o w hw k (Finset.mem_range.1 hk))
  have hinv (k : Nat) (hk : k ∈ Finset.range w) : bytePlace o w (bytePlace o w k) = k :=
    bytePlace_bytePlace o w hw k (Finset.mem_range.1 hk)
  rw [placedValue, sumTo_eq_sum]
  refine Finset.sum_bij' (fun k _ => bytePlace o w k) (fun k _ => bytePlace o w k) hlt hlt hinv hinv fun k hk => ?_
  rw [placedByte, hinv k hk]

/-- A sum of `n` bytes in the places `0 .. n-1` is an `8n`-bit value. -/
theorem sum_bytes_lt (c : Nat → Byte) (n : Nat) :
    ∑ j ∈ Finset.range n, (c j).toNat * 2 ^ (8 * j) < 2 ^ (8 * n) := by
  induction n with
  | zero => simp
  | succ n ih =>
    have htop := Nat.mul_le_mul_right (2 ^ (8 * n)) (Nat.le_of_lt_succ (c n).isLt)
    rw [Finset.sum_range_succ, Nat.mul_succ, Nat.pow_add]
    omega

/-- A field's value fits the field (R82). -/
theorem placedValue_lt (o : DataOrder) (x : DataTransformation) (w : Nat) (b : Nat → Byte)
    (hw : isMiddleOrder o = true → w = 4) : placedValue o x w b < 2 ^ (8 * w) := by
  rw [placedValue_eq_sum o x w b hw]
  exact sum_bytes_lt _ w

/-- A field's value depends on the field's bytes alone. -/
theorem placedValue_congr (o : DataOrder) (x : DataTransformation) (w : Nat) {b b' : Nat → Byte}
    (h : ∀ k < w, b k = b' k) : placedValue o x w b = placedValue o x w b' := by
  simp only [placedValue, sumTo_eq_sum]
  exact Finset.sum_congr rfl fun k hk => by rw [h k (Finset.mem_range.1 hk)]

/-- The value of a one-byte field is its byte, transformed. -/
theorem placedValue_one (o : DataOrder) (x : DataTransformation) (b : Nat → Byte) (ho : isMiddleOrder o = false) :
    placedValue o x 1 b = (transformByte x (b 0)).toNat := by
  cases o with
  | big | little => simp [placedValue, sumTo, bytePlace]
  | middle | inversedMiddle => cases ho

/-- The value `ReadRaw` assembles under `BIG` is the placed one. -/
theorem assemble_big_eq (x : DataTransformation) (n : Nat) (b : Nat → Byte) :
    assemble .big x (n + 1) b = placedValue .big x (n + 1) b := by
  have hplace (k : Nat) : bytePlace .big (n + 1) k = n - k := rfl
  rw [assemble, placedValue, sumTo, Nat.add_comm]
  simp only [sumTo_eq_sum, Nat.shiftLeft_eq, hplace, Nat.add_sub_cancel]
  congr 1
  · refine Finset.sum_congr rfl fun k hk => ?_
    have hlt := Finset.mem_range.1 hk
    rw [if_neg (by omega)]
  · simp

/-- The value `ReadRaw` assembles under `LITTLE` is the placed one. -/
theorem assemble_little_eq (x : DataTransformation) (n : Nat) (b : Nat → Byte) :
    assemble .little x (n + 1) b = placedValue .little x (n + 1) b := by
  have hplace (k : Nat) : bytePlace .little (n + 1) k = k := rfl
  simp [assemble, placedValue, hplace, sumTo_eq_sum, Nat.shiftLeft_eq, Finset.sum_range_succ', Nat.add_comm]

/-- The value `ReadRaw` assembles under `MIDDLE` is the placed one. -/
theorem assemble_middle_eq (b : Nat → Byte) : assemble .middle .none 4 b = placedValue .middle .none 4 b := by
  rw [assemble_middle, placedValue_eq_sum _ _ _ _ fun _ => rfl]
  simp [Finset.sum_range_succ, placedByte, bytePlace, transformByte]

/-- The value `ReadRaw` assembles under `INVERSED_MIDDLE` is the placed one. -/
theorem assemble_inversedMiddle_eq (b : Nat → Byte) :
    assemble .inversedMiddle .none 4 b = placedValue .inversedMiddle .none 4 b := by
  rw [assemble_inversedMiddle, placedValue_eq_sum _ _ _ _ fun _ => rfl]
  simp [Finset.sum_range_succ, placedByte, bytePlace, transformByte]

/-- Every type is at least one byte wide (R50). -/
theorem typeWidth_pos (t : DataType) : 0 < typeWidth t := by cases t <;> decide

/-- No type is wider than eight bytes (R50). -/
theorem typeWidth_le (t : DataType) : typeWidth t ≤ 8 := by cases t <;> decide

/-- The two middle orders go with `INT` and `NONE` alone (R74, R75). -/
theorem legalCombination_iff (t : DataType) (o : DataOrder) (x : DataTransformation) :
    legalCombination t o x = true ↔ (isMiddleOrder o = true → t = .int ∧ x = .none) := by
  rw [legalCombination]
  cases isMiddleOrder o <;> simp

/-- Under a middle order a legal field is four bytes wide. -/
theorem typeWidth_of_legal {t : DataType} {o : DataOrder} {x : DataTransformation}
    (h : legalCombination t o x = true) (ho : isMiddleOrder o = true) : typeWidth t = 4 := by
  obtain ⟨rfl, -⟩ := (legalCombination_iff t o x).1 h ho
  rfl

/-- On every legal combination `ReadRaw` assembles the placed value (R78, R80). -/
theorem assemble_eq_placedValue {t : DataType} {o : DataOrder} {x : DataTransformation} (b : Nat → Byte)
    (h : legalCombination t o x = true) : assemble o x (typeWidth t) b = placedValue o x (typeWidth t) b := by
  obtain ⟨n, hn⟩ := Nat.exists_eq_succ_of_ne_zero (typeWidth_pos t).ne'
  cases o with
  | big => rw [hn, assemble_big_eq]
  | little => rw [hn, assemble_little_eq]
  | middle =>
    obtain ⟨rfl, rfl⟩ := (legalCombination_iff t _ x).1 h rfl
    exact assemble_middle_eq b
  | inversedMiddle =>
    obtain ⟨rfl, rfl⟩ := (legalCombination_iff t _ x).1 h rfl
    exact assemble_inversedMiddle_eq b

/-- The field's value fits its type (R82). -/
theorem State.fieldValue_lt (s : State) {t : DataType} {o : DataOrder} {x : DataTransformation}
    (h : legalCombination t o x = true) : s.fieldValue o x (typeWidth t) < 2 ^ (8 * typeWidth t) :=
  placedValue_lt o x _ _ (typeWidth_of_legal h)

/-- A legal combination passes the argument checks (R85). -/
theorem rawPlan_of_legal {t : DataType} {o : DataOrder} {x : DataTransformation}
    (h : legalCombination t o x = true) : rawPlan (.known t) (.known o) (.known x) = .legal t o x := by
  rw [legalCombination_iff] at h
  by_cases ho : isMiddleOrder o = true
  · obtain ⟨rfl, rfl⟩ := h ho
    simp [rawPlan, ho]
  · simp [rawPlan, ho]

/-- Under a middle order any type but `INT` and any transformation but `NONE` is rejected (R85, causes 3 and 4). -/
theorem rawPlan_of_middle {t : DataType} {o : DataOrder} {xf : XfField} (ho : isMiddleOrder o = true)
    (h : xf ≠ .known .none ∨ t ≠ .int) : rawPlan (.known t) (.known o) xf = .reject := by
  rcases h with h | h <;> simp [rawPlan, ho, h]

/-- Under the other two orders an unrecognised transformation is met inside the field (R85, cause 5). -/
theorem rawPlan_of_unrecognised_xf (t : DataType) {o : DataOrder} (c : BitVec 3) (ho : isMiddleOrder o = false) :
    rawPlan (.known t) (.known o) (.unrecognised c) = .rejectMidField (typeWidth t) := by
  simp [rawPlan, ho]

/-- Selectors that are no legal combination are rejected, before the field or inside it (R85). -/
theorem rawPlan_of_badSelectors (ty : TypeField) (ord : OrdField) (xf : XfField)
    (h : badSelectors ty ord xf = true) :
    rawPlan ty ord xf = .reject ∨ ∃ w, rawPlan ty ord xf = .rejectMidField w := by
  rcases ty with t | c
  · rcases ord with o | c
    · cases ho : isMiddleOrder o with
      | false =>
        rcases xf with x | c
        · simp [badSelectors, legalCombination, ho] at h
        · exact .inr ⟨_, rawPlan_of_unrecognised_xf t c ho⟩
      | true =>
        refine .inl (rawPlan_of_middle ho (not_and_or.1 fun hlegal => ?_))
        obtain ⟨rfl, rfl⟩ := hlegal
        simp [badSelectors, legalCombination] at h
    · exact .inl rfl
  · exact .inl rfl

/-- A `BufferFault` in Byte mode draws `RD` from its range (R105). -/
theorem raiseByteFault_failsWith (s : State) (h : s.rd ≤ s.wr) :
    FailsWithRdUpTo s.wr .bufferFault s (raiseByteFault s) :=
  ⟨_, _, rfl, s.drawIn_ge _ _, s.drawIn_le _ _ h, rfl⟩

/-- An error inside a field of `w` bytes draws `RD` from the field's readable bytes (R81). -/
theorem raiseMidField_failsWith (w : Nat) (s : State) (h : s.rd ≤ s.wr) :
    FailsWithRdUpTo (min (s.rd + w) s.wr) .invalidArgument s (raiseMidField w s) :=
  ⟨_, _, rfl, s.drawIn_ge _ _, s.drawIn_le _ _ (le_min (Nat.le_add_right _ _) h), rfl⟩

/-- The command is `ReadRaw` in Byte mode, its result integer made by `result` (R82, R83). -/
def ReadsField (cmd : TypeField → OrdField → XfField → Instr) (result : Nat → Nat → Int) : Prop :=
  ∀ ty ord xf s, exec (cmd ty ord xf) s = requireMode .byte s (readRaw ty ord xf result s)

theorem readsField_getu : ReadsField .getu fun _ v => v := fun _ _ _ _ => rfl

theorem readsField_gets : ReadsField .gets sext := fun _ _ _ _ => rfl

section ReadsField

variable {cmd : TypeField → OrdField → XfField → Instr} {result : Nat → Nat → Int} (hcmd : ReadsField cmd result)
  (s : State)
include hcmd

/-- In Bit mode the mode check fails, whatever the selectors are (R82, R83). -/
theorem ReadsField.exec_of_bit (ty : TypeField) (ord : OrdField) (xf : XfField) (hm : s.mode = .bit) :
    FailsPrecisely .invalidMode s (exec (cmd ty ord xf) s) := by
  rw [hcmd, requireMode_of_ne _ _ _ (by simp [hm])]
  exact raise_failsPrecisely _ s

/-- Selectors rejected before the field consume nothing (R85). -/
theorem ReadsField.exec_of_reject {ty : TypeField} {ord : OrdField} {xf : XfField} (hm : s.mode = .byte)
    (h : rawPlan ty ord xf = .reject) : FailsPrecisely .invalidArgument s (exec (cmd ty ord xf) s) := by
  rw [hcmd, requireMode_of_eq _ _ _ hm, readRaw, h]
  exact raise_failsPrecisely _ s

/-- Selectors rejected inside the field are answered by the error of R81. -/
theorem ReadsField.exec_of_rejectMidField {ty : TypeField} {ord : OrdField} {xf : XfField} {w : Nat}
    (hm : s.mode = .byte) (h : rawPlan ty ord xf = .rejectMidField w) :
    exec (cmd ty ord xf) s = raiseMidField w s := by
  rw [hcmd, requireMode_of_eq _ _ _ hm, readRaw, h]

/-- Selectors that are no legal combination answer `InvalidArgumentError`, from any cursor (R85). -/
theorem ReadsField.exec_of_badSelectors (ty : TypeField) (ord : OrdField) (xf : XfField) (hm : s.mode = .byte)
    (h : badSelectors ty ord xf = true) : Answers (.error .invalidArgument) (exec (cmd ty ord xf) s) := by
  obtain hr | ⟨w, hw⟩ := rawPlan_of_badSelectors ty ord xf h
  · obtain ⟨rsp, hrsp, hexec⟩ := hcmd.exec_of_reject s hm hr
    exact ⟨_, rsp, hexec, rfl, hrsp⟩
  · rw [hcmd.exec_of_rejectMidField s hm hw]
    exact answers_raise _ _

/-- A legal field that ends past the readable bytes is a `BufferFault` (R82, R83). -/
theorem ReadsField.exec_of_gt (t : DataType) (o : DataOrder) (x : DataTransformation) (hm : s.mode = .byte)
    (hl : legalCombination t o x = true) (hle : s.rd ≤ s.wr) (hgt : s.wr < s.rd + typeWidth t) :
    FailsWithRdUpTo s.wr .bufferFault s (exec (cmd (.known t) (.known o) (.known x)) s) := by
  rw [hcmd, requireMode_of_eq _ _ _ hm, readRaw, rawPlan_of_legal hl]
  simp only [s.consumeN_of_gt _ (typeWidth_pos t) hgt]
  exact raiseByteFault_failsWith s hle

/-- A readable legal field is consumed and its placed value answered (R78, R80). -/
theorem ReadsField.exec_of_le (t : DataType) (o : DataOrder) (x : DataTransformation) (hm : s.mode = .byte)
    (hl : legalCombination t o x = true) (hle : s.rd + typeWidth t ≤ s.wr) :
    exec (cmd (.known t) (.known o) (.known x)) s = .next { s with
      rd := s.rd + typeWidth t,
      rsp := okResponse (result (8 * typeWidth t) (s.fieldValue o x (typeWidth t))) [] } := by
  have hvalue : assemble o x (typeWidth t)
      (fun k => ((List.range (typeWidth t)).map fun k => s.byteAt (s.rd + k)).getD k 0) =
        s.fieldValue o x (typeWidth t) := by
    rw [assemble_eq_placedValue _ hl]
    exact placedValue_congr o x _ fun k hk => by simp [hk]
  rw [hcmd, requireMode_of_eq _ _ _ hm, readRaw, rawPlan_of_legal hl]
  simp only [s.consumeN_of_le _ hle, hvalue]
  rfl

/-- The five causes of `InvalidArgumentError` (R85), each by the check it fails. -/
theorem ReadsField.argumentErrors (hm : s.mode = .byte) :
    (∀ c o x, FailsPrecisely .invalidArgument s (exec (cmd (.unrecognised c) o x) s)) ∧
    (∀ t c x, FailsPrecisely .invalidArgument s (exec (cmd (.known t) (.unrecognised c) x) s)) ∧
    (∀ t o x, isMiddleOrder o = true → x ≠ .known .none →
      FailsPrecisely .invalidArgument s (exec (cmd (.known t) (.known o) x) s)) ∧
    (∀ t o x, isMiddleOrder o = true → t ≠ .int →
      FailsPrecisely .invalidArgument s (exec (cmd (.known t) (.known o) x) s)) ∧
    (∀ t o c, isMiddleOrder o = false → s.rd ≤ s.wr →
      FailsWithRdUpTo (min (s.rd + typeWidth t) s.wr) .invalidArgument s
        (exec (cmd (.known t) (.known o) (.unrecognised c)) s)) := by
  refine ⟨fun c o x => hcmd.exec_of_reject s hm rfl, fun t c x => hcmd.exec_of_reject s hm rfl,
    fun t o x ho hx => hcmd.exec_of_reject s hm (rawPlan_of_middle ho (.inl hx)),
    fun t o x ho ht => hcmd.exec_of_reject s hm (rawPlan_of_middle ho (.inr ht)), fun t o c ho hle => ?_⟩
  rw [hcmd.exec_of_rejectMidField s hm (rawPlan_of_unrecognised_xf t c ho)]
  exact raiseMidField_failsWith _ s hle

end ReadsField

/-- The word of `GETU`: its code and the three selectors (R82). -/
theorem encode_getu (t : TypeField) (o : OrdField) (x : XfField) :
    encode (.getu t o x) = 0x40000000 ||| (t.code.setWidth 32 <<< 24) ||| (o.code.setWidth 32 <<< 21) |||
      (x.code.setWidth 32 <<< 18) := by
  simp [encode, Instr.fields, joinWord, Op.code]

/-- The word of `GETS`: its code and the three selectors (R83). -/
theorem encode_gets (t : TypeField) (o : OrdField) (x : XfField) :
    encode (.gets t o x) = 0x50000000 ||| (t.code.setWidth 32 <<< 24) ||| (o.code.setWidth 32 <<< 21) |||
      (x.code.setWidth 32 <<< 18) := by
  simp [encode, Instr.fields, joinWord, Op.code]

/-- `sext` by the bound the spec tests: subtract `2^n` above `2^(n-1) - 1` (R83). -/
theorem sext_eq_ite (n v : Nat) :
    sext n v = if v ≤ 2 ^ (n - 1) - 1 then (v : Int) else (v : Int) - 2 ^ n := by
  have hpos := Nat.two_pow_pos (n - 1)
  exact if_congr (by omega) rfl rfl

/-- Settles O26: the errors and the completion of a field read, the result the placed value itself. -/
theorem getuAnswersThePlacedValue : Obligations.GetuAnswersThePlacedValue :=
  ⟨encode_getu, fun t o x s => readsField_getu.exec_of_bit s t o x,
    fun t o x s => readsField_getu.exec_of_badSelectors s t o x, readsField_getu.exec_of_gt,
    fun s t o x hm hl hle => ⟨_, rfl, s.fieldValue_lt hl, readsField_getu.exec_of_le s t o x hm hl hle⟩⟩

/-- Settles O27: the errors and the completion of a field read, the result the placed value sign-extended. -/
theorem getsAnswersTheSignedValue : Obligations.GetsAnswersTheSignedValue := by
  refine ⟨encode_gets, fun t o x s => readsField_gets.exec_of_bit s t o x,
    fun t o x s => readsField_gets.exec_of_badSelectors s t o x, readsField_gets.exec_of_gt,
    fun s t o x hm hl hle => ⟨_, rfl, s.fieldValue_lt hl, ?_⟩⟩
  rw [← sext_eq_ite]
  exact readsField_gets.exec_of_le s t o x hm hl hle

/-- `RES` of a signed container is the sign extension of the pattern, for every width (R84). -/
theorem ofInt_sext_width (n v : Nat) (hn : 0 < n) (hv : v < 2 ^ n) :
    BitVec.ofInt 64 (sext n v) = (BitVec.ofNat n v).signExtend 64 := by
  rw [sext_eq_toInt n v hn hv, BitVec.signExtend]

/-- `RES` of a signed container holds the pattern, and copies its top bit above it (R84). -/
theorem getLsbD_ofInt_sext_width (n v k : Nat) (hn : 0 < n) (hv : v < 2 ^ n) (hk : k < 64) :
    (BitVec.ofInt 64 (sext n v)).getLsbD k = if k < n then v.testBit k else v.testBit (n - 1) := by
  rw [ofInt_sext_width n v hn hv, BitVec.getLsbD_signExtend, BitVec.msb_eq_getLsbD_last, decide_eq_true hk,
    Bool.true_and]
  split
  · next hlt => rw [BitVec.getLsbD_ofNat, decide_eq_true hlt, Bool.true_and]
  · rw [BitVec.getLsbD_ofNat, decide_eq_true (Nat.sub_one_lt hn.ne'), Bool.true_and]

/-- A signed container of up to 64 bits fits `RES` (R84). -/
theorem toInt_ofInt_sext_width (n v : Nat) (hn : 0 < n) (h64 : n ≤ 64) (hv : v < 2 ^ n) :
    (BitVec.ofInt 64 (sext n v)).toInt = sext n v := by
  rw [ofInt_sext_width n v hn hv, BitVec.toInt_signExtend_of_le h64, sext_eq_toInt n v hn hv]

/-- `RES` of an unsigned value holds the value's bits, and 0 above the width (R84). -/
theorem getLsbD_ofInt_natCast (n v k : Nat) (hv : v < 2 ^ n) (hk : k < 64) :
    (BitVec.ofInt 64 v).getLsbD k = (decide (k < n) && v.testBit k) := by
  rw [BitVec.ofInt_natCast, BitVec.getLsbD_ofNat, decide_eq_true hk, Bool.true_and]
  by_cases hlt : k < n
  · rw [decide_eq_true hlt, Bool.true_and]
  · rw [decide_eq_false hlt, Bool.false_and,
      Nat.testBit_lt_two_pow (hv.trans_le (Nat.pow_le_pow_right (by decide) (Nat.le_of_not_lt hlt)))]

/-- Settles O28: the two reads answer one placed value, one as it is and one sign-extended. -/
theorem signExtensionUnit : Obligations.SignExtensionUnit := by
  intro s t o x hm hl hle
  have hv := s.fieldValue_lt hl
  have hpos := typeWidth_pos t
  have hwide := typeWidth_le t
  refine ⟨_, _, _, _, _, rfl, hv, readsField_getu.exec_of_le s t o x hm hl hle, rfl, rfl,
    readsField_gets.exec_of_le s t o x hm hl hle, rfl, rfl, ?_, fun k hk => ⟨?_, ?_⟩⟩
  · rw [← sext_eq_ite]
    exact toInt_ofInt_sext_width _ _ (by omega) (by omega) hv
  · exact getLsbD_ofInt_natCast _ _ k hv hk
  · exact getLsbD_ofInt_sext_width _ _ k (by omega) hv hk

/-- Settles O29: `GETU` and `GETS` make the argument checks of one read. -/
theorem fixedWidthArgumentErrors : Obligations.FixedWidthArgumentErrors := by
  rintro cmd (rfl | rfl) s hm
  · exact readsField_getu.argumentErrors s hm
  · exact readsField_gets.argumentErrors s hm

/-- A one-byte `GETU` answers the byte by the formula of its transformation (R76). -/
theorem exec_getu_byte (s : State) (o : DataOrder) (x : DataTransformation) (hm : s.mode = .byte)
    (ho : isMiddleOrder o = false) (hlt : s.rd < s.wr) :
    exec (.getu (.known .byte) (.known o) (.known x)) s = .next { s with
      rd := s.rd + 1, rsp := okResponse (transformInt x (s.byteAt s.rd).toNat % 256) [] } := by
  have hl : legalCombination .byte o x = true := by simp [legalCombination, ho]
  have hvalue : s.fieldValue o x (typeWidth .byte) = (transformByte x (s.byteAt s.rd)).toNat :=
    placedValue_one o x _ ho
  rw [readsField_getu.exec_of_le s .byte o x hm hl hlt, hvalue, toNat_transformByte]
  rfl

/-- Settles O23: the formulas hold for each transformation, on the byte alone and through `GETU`. -/
theorem transformationFormulas : Obligations.TransformationFormulas := by
  refine ⟨fun r => ⟨toNat_transformByte .none r, toNat_transformByte .add r, toNat_transformByte .subtract r,
      toNat_transformByte .negate r, toNat_transformByte_signed .none r, toNat_transformByte_signed .add r,
      toNat_transformByte_signed .subtract r, toNat_transformByte_signed .negate r⟩,
    by decide, by decide, by decide, fun s o hm ho hlt => ⟨?_, ?_, ?_, ?_⟩⟩
  · exact exec_getu_byte s o .none hm ho hlt
  · exact exec_getu_byte s o .add hm ho hlt
  · exact exec_getu_byte s o .subtract hm ho hlt
  · exact exec_getu_byte s o .negate hm ho hlt

end Sys2Proof.Machine
end

section
/-! `GETSMART` (R88, R89). A readable first byte chooses the form; the two-byte form's value is its bytes in big-endian
order. -/

namespace Sys2Proof.Machine

/-- Two bytes put together by shift and or are their big-endian value. -/
theorem shiftLeft_or_byte (hi lo : Byte) : hi.toNat <<< 8 ||| lo.toNat = hi.toNat * 256 + lo.toNat := by
  rw [← Nat.shiftLeft_add_eq_or_of_lt lo.isLt, Nat.shiftLeft_eq]

/-- With nothing readable the peek is refused, whatever the byte at `RD` is (R29). -/
theorem exec_getsmart_of_ge (s : State) (hm : s.mode = .byte) (hge : s.wr ≤ s.rd) :
    exec .getsmart s = raiseByteFault s := by
  rw [exec, execGetsmart, requireMode_of_eq _ _ _ hm, s.peek_of_ge _ hge]

/-- A first byte below 128 selects the one-byte form. -/
theorem exec_getsmart_of_lt_128 (s : State) (hm : s.mode = .byte) (hlt : s.rd < s.wr)
    (hp : (s.byteAt s.rd).toNat < 128) : exec .getsmart s = smartShort s := by
  rw [exec, execGetsmart, requireMode_of_eq _ _ _ hm, s.peek_of_lt _ hlt]
  exact if_pos hp

/-- A first byte from 128 on selects the two-byte form. -/
theorem exec_getsmart_of_ge_128 (s : State) (hm : s.mode = .byte) (hlt : s.rd < s.wr)
    (hp : 128 ≤ (s.byteAt s.rd).toNat) : exec .getsmart s = smartLong s := by
  rw [exec, execGetsmart, requireMode_of_eq _ _ _ hm, s.peek_of_lt _ hlt]
  exact if_neg (Nat.not_lt.2 hp)

theorem smartShort_of_lt (s : State) (hlt : s.rd < s.wr) :
    smartShort s = respond ((s.byteAt s.rd).toNat - 64) (s.setRd (s.rd + 1)) := by
  rw [smartShort, s.consume_of_lt hlt]

/-- The two-byte form is cut short by the end of the readable bytes. -/
theorem smartLong_of_eq (s : State) (heq : s.rd + 1 = s.wr) : smartLong s = raiseByteFault s := by
  rw [smartLong, s.consume_of_lt (by omega)]
  simp only [(s.setRd (s.rd + 1)).consume_of_ge heq.ge]

theorem smartLong_of_lt (s : State) (hlt : s.rd + 1 < s.wr) :
    smartLong s = respond ((s.byteAt s.rd).toNat * 256 + (s.byteAt (s.rd + 1)).toNat - 49152)
      (s.setRd (s.rd + 2)) := by
  rw [smartLong, s.consume_of_lt (by omega)]
  simp [(s.setRd (s.rd + 1)).consume_of_lt hlt, shiftLeft_or_byte]

/-- In Bit mode the mode check fails (R88). -/
theorem exec_getsmart_of_bit (s : State) (hm : s.mode = .bit) :
    FailsPrecisely .invalidMode s (exec .getsmart s) := by
  rw [exec_of_wrongMode _ s (.inl ⟨rfl, hm⟩)]
  exact raise_failsPrecisely _ s

/-- The one-byte form: the byte minus 64, and `RD` advanced by one (R88). -/
theorem exec_getsmart_oneByte (s : State) (hm : s.mode = .byte) (hlt : s.rd < s.wr)
    (hp : (s.byteAt s.rd).toNat < 128) : exec .getsmart s = .next { s with
      rd := s.rd + 1, rsp := okResponse ((s.byteAt s.rd).toNat - 64) [] } := by
  rw [exec_getsmart_of_lt_128 s hm hlt hp, smartShort_of_lt s hlt]
  rfl

/-- The two-byte form: the big-endian value minus 49152, and `RD` advanced by two (R88). -/
theorem exec_getsmart_twoBytes (s : State) (hm : s.mode = .byte) (hlt : s.rd + 1 < s.wr)
    (hp : 128 ≤ (s.byteAt s.rd).toNat) : exec .getsmart s = .next { s with
      rd := s.rd + 2,
      rsp := okResponse ((s.byteAt s.rd).toNat * 256 + (s.byteAt (s.rd + 1)).toNat - 49152) [] } := by
  rw [exec_getsmart_of_ge_128 s hm (Nat.lt_of_succ_lt hlt) hp, smartLong_of_lt s hlt]
  rfl

/-- Settles O32: the peeked byte chooses the form, and each form ends where its bytes do. -/
theorem getsmartForms : Obligations.GetsmartForms := by
  refine ⟨by decide, exec_getsmart_of_bit, fun s hm heq => ?_, exec_getsmart_oneByte, fun s hm heq hp => ?_,
    exec_getsmart_twoBytes⟩
  · rw [exec_getsmart_of_ge s hm heq.ge]
    exact raiseByteFault_failsWith s heq.le
  · rw [exec_getsmart_of_ge_128 s hm (by omega) hp, smartLong_of_eq s heq]
    exact raiseByteFault_failsWith s (by omega)

/-- Settles O33: the two ends of each form's range. -/
theorem getsmartReferenceValues : Obligations.GetsmartReferenceValues := by
  refine fun s hm => ⟨fun hlt hb => ?_, fun hlt hb => ?_, fun hlt hhi hlo => ?_, fun hlt hhi hlo => ?_⟩
  · rw [exec_getsmart_oneByte s hm hlt (by rw [hb]; decide), hb]
    rfl
  · rw [exec_getsmart_oneByte s hm hlt (by rw [hb]; decide), hb]
    rfl
  · rw [exec_getsmart_twoBytes s hm hlt (by rw [hhi]; decide), hhi, hlo]
    simp [okResponse]
  · rw [exec_getsmart_twoBytes s hm hlt (by rw [hhi]; decide), hhi, hlo]
    simp [okResponse]

end Sys2Proof.Machine
end

section
/-! The array commands (R91 to R96). Every one of them that ends OK is one loop, `n` bytes consumed in ascending order,
and its own layout of the bytes in the slots; the errors of the loop do not depend on the layout. -/

namespace Sys2Proof.Machine

/-- In Bit mode a command that requires Byte mode is `InvalidModeError` and nothing else, whatever its operands are
(R102). -/
theorem exec_needsByteMode_of_bit (i : Instr) (hi : needsByteMode i = true) (s : State) (hm : s.mode = .bit) :
    FailsPrecisely .invalidMode s (exec i s) := by
  rw [exec_of_wrongMode i s (.inl ⟨hi, hm⟩)]
  exact raise_failsPrecisely _ s

@[simp] theorem State.length_streamBytes (s : State) (n : Nat) : (s.streamBytes n).length = n := by
  simp [State.streamBytes]

@[simp] theorem State.getElem_streamBytes (s : State) (n i : Nat) (h : i < (s.streamBytes n).length) :
    (s.streamBytes n)[i] = s.byteAt (s.rd + i) := by
  simp [State.streamBytes]

/-- Slots filled from the last to the first: slot `i` holds stream byte `n - 1 - i` (R93). -/
theorem State.reverse_streamBytes (s : State) (n : Nat) :
    (s.streamBytes n).reverse = (List.range n).map fun i => s.byteAt (s.rd + (n - 1 - i)) :=
  List.ext_getElem (by simp) fun i _ _ => by simp

/-- Readable bytes are laid out in the slots and counted. No byte is readable, wherever `RD` stands. -/
theorem fillArray_of_readable (n : Nat) (slots : List Byte → List Byte) (s : State) (h : n = 0 ∨ s.rd + n ≤ s.wr) :
    fillArray n slots s =
      .next { s with rd := s.rd + n, rsp := okResponse n (slots (s.streamBytes n)) } := by
  obtain ⟨hc, -⟩ | ⟨-, hn, hgt⟩ := s.consumeN_cases n
  · rw [fillArray, hc]
    rfl
  · omega

/-- An extent past the readable bytes is a `BufferFault`, whatever the layout (R91). -/
theorem fillArray_of_gt (n : Nat) (slots : List Byte → List Byte) (s : State) (hle : s.rd ≤ s.wr)
    (hgt : s.wr < s.rd + n) : fillArray n slots s = raiseByteFault s := by
  rw [fillArray, s.consumeN_of_gt n (by omega) hgt]

/-- Layouts that agree on `n` bytes fill alike. -/
theorem fillArray_congr (n : Nat) {slots slots' : List Byte → List Byte} (s : State)
    (h : ∀ bs, bs.length = n → slots bs = slots' bs) : fillArray n slots s = fillArray n slots' s := by
  obtain ⟨-, hr⟩ | ⟨hc, -⟩ := s.consumeN_cases n
  · rw [fillArray_of_readable n slots s hr, fillArray_of_readable n slots' s hr, h _ (s.length_streamBytes n)]
  · simp only [fillArray, hc]

/-- The command is the loop of `n` bytes in Byte mode, its slots laid out by `slots` (R91). -/
def FillsSlots (i : Instr) (n : Nat) (slots : List Byte → List Byte) : Prop :=
  ∀ s, exec i s = requireMode .byte s (fillArray n slots s)

section FillsSlots

variable {i : Instr} {n : Nat} {slots : List Byte → List Byte} (hi : FillsSlots i n slots) (s : State)
include hi

theorem FillsSlots.exec_of_gt (hm : s.mode = .byte) (hle : s.rd ≤ s.wr) (hgt : s.wr < s.rd + n) :
    FailsWithRdUpTo s.wr .bufferFault s (exec i s) := by
  rw [hi, requireMode_of_eq _ _ _ hm, fillArray_of_gt n slots s hle hgt]
  exact raiseByteFault_failsWith s hle

theorem FillsSlots.exec_of_readable (hm : s.mode = .byte) (h : n = 0 ∨ s.rd + n ≤ s.wr) :
    exec i s = .next { s with rd := s.rd + n, rsp := okResponse n (slots (s.streamBytes n)) } := by
  rw [hi, requireMode_of_eq _ _ _ hm, fillArray_of_readable n slots s h]

/-- Commands whose layouts agree on `n` bytes are the same, in either mode. -/
theorem FillsSlots.exec_eq {j : Instr} {slots' : List Byte → List Byte} (hj : FillsSlots j n slots')
    (h : ∀ bs, bs.length = n → slots bs = slots' bs) : exec i s = exec j s := by
  rw [hi, hj, fillArray_congr n s h]

end FillsSlots

theorem fillsSlots_getbytes (n : BitVec 16) : FillsSlots (.getbytes n) n.toNat id := fun _ => rfl

theorem fillsSlots_getbytesr (n : BitVec 16) : FillsSlots (.getbytesr n) n.toNat List.reverse := fun _ => rfl

/-- The word of `GETBYTES`: its code and the count (R92). -/
theorem encode_getbytes (n : BitVec 16) : encode (.getbytes n) = 0x70000000 ||| n.setWidth 32 := by
  simp [encode, Instr.fields, joinWord, Op.code]

/-- The word of `GETBYTESR`: its code and the count (R93). -/
theorem encode_getbytesr (n : BitVec 16) : encode (.getbytesr n) = 0x80000000 ||| n.setWidth 32 := by
  simp [encode, Instr.fields, joinWord, Op.code]

/-- Settles O35: the loop with the bytes left in stream order. -/
theorem getbytesFillsForward : Obligations.GetbytesFillsForward := fun s n =>
  have hfill := fillsSlots_getbytes n
  ⟨encode_getbytes n, exec_needsByteMode_of_bit _ rfl s, hfill.exec_of_gt s,
    fun hm hle => hfill.exec_of_readable s hm (.inr hle)⟩

/-- Reversing at most one byte leaves it. -/
theorem reverse_eq_id_of_length_le_one (bs : List Byte) (h : bs.length ≤ 1) : bs.reverse = id bs := by
  match bs, h with
  | [], _ => rfl
  | [_], _ => rfl

/-- Settles O36: the loop with the bytes reversed, and two layouts that agree on at most one byte. -/
theorem getbytesrFillsBackward : Obligations.GetbytesrFillsBackward := by
  intro s n
  have hfill := fillsSlots_getbytesr n
  refine ⟨encode_getbytesr n, exec_needsByteMode_of_bit _ rfl s, hfill.exec_of_gt s, fun hm hle => ?_, fun hn => ?_⟩
  · rw [← s.reverse_streamBytes]
    exact hfill.exec_of_readable s hm (.inr hle)
  · exact hfill.exec_eq s (fillsSlots_getbytes n) fun bs hbs => reverse_eq_id_of_length_le_one bs (by omega)

/-- The command reads its bytes with a transformation and lays them out by `layout`; under `NONE` it is the reverse read
(R94, R95). -/
def FillsTransformed (cmd : XfField → BitVec 16 → Instr) (layout : List Byte → List Byte) : Prop :=
  ∀ xf n s, exec (cmd xf n) s = requireMode .byte s
    (if xf = .known .none then fillArray n.toNat List.reverse s else fillTransformed xf n.toNat layout s)

theorem fillsTransformed_getbytesx : FillsTransformed .getbytesx id := fun _ _ _ => rfl

theorem fillsTransformed_getbytesrx : FillsTransformed .getbytesrx List.reverse := fun _ _ _ => rfl

section FillsTransformed

variable {cmd : XfField → BitVec 16 → Instr} {layout : List Byte → List Byte} (hcmd : FillsTransformed cmd layout)
  (n : BitVec 16) (s : State)
include hcmd

/-- Under `NONE` the command is the reverse read. -/
theorem FillsTransformed.fillsSlots_none : FillsSlots (cmd (.known .none) n) n.toNat List.reverse := fun s => by
  rw [hcmd, if_pos rfl]

/-- Under every other recognised transformation the slots hold the bytes transformed. -/
theorem FillsTransformed.fillsSlots_of_ne {x : DataTransformation} (hx : x ≠ .none) :
    FillsSlots (cmd (.known x) n) n.toNat fun bs => layout (bs.map (transformByte x)) := fun s => by
  rw [hcmd, if_neg (by simpa using hx), fillTransformed]

/-- Under a recognised transformation the command is the loop, and lays no bytes out in no slots. -/
theorem FillsTransformed.exists_fillsSlots (hlayout : layout [] = []) (x : DataTransformation) :
    ∃ slots, FillsSlots (cmd (.known x) n) n.toNat slots ∧ slots [] = [] := by
  by_cases hx : x = .none
  · subst hx
    exact ⟨_, hcmd.fillsSlots_none n, rfl⟩
  · exact ⟨_, hcmd.fillsSlots_of_ne n hx, hlayout⟩

/-- Past its mode check, a command with an unrecognised transformation looks at its count only. -/
theorem FillsTransformed.exec_of_unrecognised (c : BitVec 3) (hm : s.mode = .byte) :
    exec (cmd (.unrecognised c) n) s = if n.toNat = 0 then respondWith 0 [] s else raiseMidField 1 s := by
  rw [hcmd, requireMode_of_eq _ _ _ hm, if_neg (by simp), fillTransformed]

/-- An unrecognised transformation is met at the first slot, ahead of the extent (R94). -/
theorem FillsTransformed.exec_of_unrecognised_pos (xf : XfField) (c : BitVec 3) (hxf : xf = .unrecognised c)
    (hm : s.mode = .byte) (hle : s.rd ≤ s.wr) (hn : 0 < n.toNat) :
    FailsWithRdUpTo (min (s.rd + 1) s.wr) .invalidArgument s (exec (cmd xf n) s) := by
  rw [hxf, hcmd.exec_of_unrecognised n s c hm, if_neg hn.ne']
  exact raiseMidField_failsWith 1 s hle

/-- With no slot there is nothing to meet: the command answers the empty list (decision D19). -/
theorem FillsTransformed.exec_of_eq_zero (hlayout : layout [] = []) (xf : XfField) (hm : s.mode = .byte) (hn : n = 0) :
    exec (cmd xf n) s = .next { s with rsp := okResponse 0 [] } := by
  subst hn
  cases xf with
  | known x =>
    obtain ⟨slots, hfill, hnil⟩ := hcmd.exists_fillsSlots 0 hlayout x
    rw [hfill.exec_of_readable s hm (.inl rfl)]
    exact congrArg (fun out => Host.Outcome.next { s with rsp := okResponse 0 out }) hnil
  | unrecognised c => exact hcmd.exec_of_unrecognised 0 s c hm

/-- Under a recognised transformation an extent past the readable bytes is a `BufferFault`. -/
theorem FillsTransformed.exec_of_gt (hlayout : layout [] = []) (xf : XfField) (x : DataTransformation)
    (hxf : xf = .known x) (hm : s.mode = .byte) (hle : s.rd ≤ s.wr) (hgt : s.wr < s.rd + n.toNat) :
    FailsWithRdUpTo s.wr .bufferFault s (exec (cmd xf n) s) := by
  obtain ⟨slots, hfill, -⟩ := hcmd.exists_fillsSlots n hlayout x
  rw [hxf]
  exact hfill.exec_of_gt s hm hle hgt

/-- Under `NONE` the command is `GETBYTESR`, in either mode. -/
theorem FillsTransformed.exec_none (xf : XfField) (hxf : xf = .known .none) :
    exec (cmd xf n) s = exec (.getbytesr n) s := by
  rw [hxf]
  exact (hcmd.fillsSlots_none n).exec_eq s (fillsSlots_getbytesr n) fun _ _ => rfl

end FillsTransformed

/-- `NONE` leaves the byte (R76). -/
theorem transformByte_none : transformByte .none = id := rfl

/-- `GETBYTESRX` reverses and transforms under every recognised transformation, `NONE` among them (R95). -/
theorem fillsSlots_getbytesrx (x : DataTransformation) (n : BitVec 16) :
    FillsSlots (.getbytesrx (.known x) n) n.toNat fun bs => (bs.map (transformByte x)).reverse := by
  by_cases hx : x = .none
  · subst hx
    simpa [transformByte_none] using fillsTransformed_getbytesrx.fillsSlots_none n
  · exact fillsTransformed_getbytesrx.fillsSlots_of_ne n hx

/-- The word of `GETBYTESX`: its code, the transformation and the count (R94). -/
theorem encode_getbytesx (xf : XfField) (n : BitVec 16) :
    encode (.getbytesx xf n) = 0x90000000 ||| (xf.code.setWidth 32 <<< 18) ||| n.setWidth 32 := by
  simp [encode, Instr.fields, joinWord, Op.code]

/-- The word of `GETBYTESRX`: its code, the transformation and the count (R95). -/
theorem encode_getbytesrx (xf : XfField) (n : BitVec 16) :
    encode (.getbytesrx xf n) = 0xA0000000 ||| (xf.code.setWidth 32 <<< 18) ||| n.setWidth 32 := by
  simp [encode, Instr.fields, joinWord, Op.code]

/-- Settles O37: the errors of a transformed read, the reverse read under `NONE`, and else the bytes transformed in
stream order. -/
theorem getbytesxForms : Obligations.GetbytesxForms := by
  refine fun s xf n => ⟨encode_getbytesx xf n, exec_needsByteMode_of_bit _ rfl s,
    fillsTransformed_getbytesx.exec_of_unrecognised_pos n s xf, fillsTransformed_getbytesx.exec_of_eq_zero n s rfl xf,
    fillsTransformed_getbytesx.exec_of_gt n s rfl xf, fillsTransformed_getbytesx.exec_none n s xf, ?_⟩
  rintro x rfl hx hm hle
  exact (fillsTransformed_getbytesx.fillsSlots_of_ne n hx).exec_of_readable s hm (.inr hle)

/-- Settles O38: the errors of a transformed read, and the bytes transformed and reversed; with `NONE` all three
reverse reads are `GETBYTESR`. -/
theorem getbytesrxForms : Obligations.GetbytesrxForms := by
  refine fun s xf n => ⟨encode_getbytesrx xf n, exec_needsByteMode_of_bit _ rfl s,
    fillsTransformed_getbytesrx.exec_of_unrecognised_pos n s xf, fillsTransformed_getbytesrx.exec_of_eq_zero n s rfl xf,
    fillsTransformed_getbytesrx.exec_of_gt n s rfl xf, ?_, fun hxf => ?_⟩
  · rintro x rfl hm hle
    have hslots : (List.range n.toNat).map (fun i => transformByte x (s.byteAt (s.rd + (n.toNat - 1 - i)))) =
        ((s.streamBytes n.toNat).map (transformByte x)).reverse := by
      rw [← List.map_reverse, s.reverse_streamBytes, List.map_map]
      rfl
    rw [hslots]
    exact (fillsSlots_getbytesrx x n).exec_of_readable s hm (.inr hle)
  · have hr := fillsTransformed_getbytesrx.exec_none n s xf hxf
    exact ⟨hr, hr.trans (fillsTransformed_getbytesx.exec_none n s xf hxf).symm⟩

end Sys2Proof.Machine
end

section
/-! `GETSTR` and the two length queries (R97 to R99). -/

namespace Sys2Proof.Machine

/-- `GETSTR` with no terminator among the readable bytes, from any cursor (R97). -/
theorem exec_getstr_of_no_zero (s : State) (hm : s.mode = .byte)
    (h : ∀ i, s.rd ≤ i → i < s.wr → s.byteAt i ≠ 0) : exec .getstr s = raiseByteFault s := by
  rw [exec, execGetstr, requireMode_of_eq _ _ _ hm, s.consumeText_of_no_zero _ h]

/-- `GETSTR` answers the text before the terminator and steps over the terminator (R97). -/
theorem exec_getstr_of_textLength (s : State) (l : Nat) (hm : s.mode = .byte) (h : s.TextLength l) :
    exec .getstr s = .next { s with rd := s.rd + l + 1, rsp := okResponse l (s.streamBytes l) } := by
  obtain ⟨hlt, hzero, hbefore⟩ := h
  rw [exec, execGetstr, requireMode_of_eq _ _ _ hm, s.consumeText_of_zero _ l (by omega) hlt hzero hbefore]
  simp only [List.length_map, List.length_range]
  rfl

/-- The host reads one character for each byte of the list (R97). -/
theorem Response.getElem?_text (r : Response) (i : Nat) : r.text[i]? = r.out[i]?.map Config.charMap :=
  List.getElem?_map

/-- Settles O39: the text loop stops at the first zero or runs out of readable bytes. -/
theorem getstrReadsToTheTerminator : Obligations.GetstrReadsToTheTerminator := by
  refine ⟨by decide, exec_needsByteMode_of_bit _ rfl, fun s hm hle hnz => ?_,
    exec_getstr_of_textLength, fun s t l r hm htext hnext hrsp => ?_⟩
  · rw [exec_getstr_of_no_zero s hm hnz]
    exact raiseByteFault_failsWith s hle
  · rw [exec_getstr_of_textLength s l hm htext] at hnext
    cases hnext
    cases hrsp
    exact ⟨by simp [Response.text], fun i hi => by simp [Response.getElem?_text, hi]⟩

/-- `GETLEN` in Byte mode only answers (R98). -/
theorem exec_getlen_of_byte (s : State) (hm : s.mode = .byte) :
    exec .getlen s = .next { s with rsp := okResponse ((s.cap : Int) - s.wr) [] } :=
  requireMode_of_eq .byte s _ hm

/-- `GETRLEN` in Byte mode only answers (R99). -/
theorem exec_getrlen_of_byte (s : State) (hm : s.mode = .byte) :
    exec .getrlen s = .next { s with rsp := okResponse ((s.wr : Int) - s.rd) [] } :=
  requireMode_of_eq .byte s _ hm

/-- The writable capacity is a buffer index where the extents are in order (R25.1, R33). -/
theorem State.writable_range (s : State) (h : s.extentsOk) :
    0 ≤ s.writable ∧ s.writable < 2 ^ Config.addrWidth := by
  obtain ⟨-, hwr, hcap⟩ := h
  have hcap' : (s.cap : Int) < 2 ^ Config.addrWidth := by exact_mod_cast hcap
  unfold State.writable
  omega

/-- Settles O40: the answer, its range, and the full buffer. -/
theorem getlenAnswersWritable : Obligations.GetlenAnswersWritable := by
  refine ⟨by decide, exec_getlen_of_byte, exec_needsByteMode_of_bit _ rfl,
    State.writable_range, fun s heq hm => ?_⟩
  rw [exec_getlen_of_byte s hm, heq, sub_self]

/-- Settles O41: no command writes `WR`, so what `RD` advances by is what the answer loses. -/
theorem getrlenAnswersReadable : Obligations.GetrlenAnswersReadable := by
  refine ⟨by decide, exec_getrlen_of_byte, exec_needsByteMode_of_bit _ rfl,
    fun s heq hm => ?_, fun i s t k hnext _ hm hrd => ?_⟩
  · rw [exec_getrlen_of_byte s hm, heq, sub_self]
  · have hside : t.hostSide = s.hostSide := (hnext ▸ exec_endsWith s i).hostSide_eq
    have hwr : t.wr = s.wr := (State.reads_of_hostSide hside).1
    rw [exec_getrlen_of_byte t hm, hwr, hrd, Nat.cast_add, sub_sub]

end Sys2Proof.Machine
end

section
/-! The errors of a command in their order (R102 to R107). A command whose mode check passes ends in one of three ways,
by its arguments and the bytes it needs; this is said once, for every state, and the priority of the errors and the
causes of each are read off it. -/

namespace Sys2Proof.Machine

/-- A precise failure answers its error (R108). -/
theorem FailsPrecisely.answers {e : ErrorKind} {s : State} {r : StepResult} (h : FailsPrecisely e s r) :
    Answers (.error e) r := by
  obtain ⟨rsp, hrsp, rfl⟩ := h
  exact ⟨_, rsp, rfl, rfl, hrsp⟩

/-- `BufferFault` in the mode the unit is in: the draw is of the authoritative cursor (R105). -/
def raiseFault (s : State) : StepResult :=
  match s.mode with
  | .byte => raiseByteFault s
  | .bit => raiseBitFault s

theorem raiseFault_of_byte (s : State) (hm : s.mode = .byte) : raiseFault s = raiseByteFault s := by
  rw [raiseFault, hm]

theorem raiseFault_of_bit (s : State) (hm : s.mode = .bit) : raiseFault s = raiseBitFault s := by
  rw [raiseFault, hm]

/-- In either mode the fault answers `BufferFault`. -/
theorem answers_raiseFault (s : State) : Answers (.error .bufferFault) (raiseFault s) := by
  cases hm : s.mode with
  | byte => rw [raiseFault_of_byte s hm]; exact answers_raise _ _
  | bit => rw [raiseFault_of_bit s hm]; exact answers_raise _ _

/-- How a command ends whose mode check passes (R107, points 3 to 5). From a cursor beyond `WR`, which R25 excludes, an
array command of no bytes ends OK (log entry 11). -/
inductive EndsInOrder (i : Instr) (s : State) : Prop where
  | argument (hargs : badArguments i = true) (hends : Answers (.error .invalidArgument) (exec i s))
  | extent (hargs : badArguments i = false) (hshort : ShortOfBytes i s) (hends : exec i s = raiseFault s)
  | ok (hargs : badArguments i = false) (hfits : s.rd ≤ s.wr → ¬ ShortOfBytes i s) (hends : Answers .ok (exec i s))

/-- `GETBITS` in Bit mode: its amount, then the readable bits (R67, R70). -/
theorem endsInOrder_getbits (a : BitVec 16) (s : State) (hm : s.mode = .bit) : EndsInOrder (.getbits a) s := by
  by_cases ha : a.toNat < 1 ∨ 32 < a.toNat
  · exact .argument (by simpa [badArguments] using ha) (exec_getbits_of_badAmount a s hm ha).answers
  · have hargs : badArguments (.getbits a) = false := by simpa [badArguments] using ha
    obtain ⟨h1, h32⟩ : 1 ≤ a.toNat ∧ a.toNat ≤ 32 := by omega
    rcases Nat.lt_or_ge (8 * s.wr) (s.bitcur + a.toNat) with hgt | hle
    · refine .extent hargs hgt ?_
      rw [exec_getbits_of_amount a s hm h1 h32, extractBits_of_gt _ s h1 hgt, raiseFault_of_bit s hm]
    · exact .ok hargs (fun _ => Nat.not_lt.2 hle) (exec_getbits_answers_ok a s hm h1 h32 hle)

/-- A legal field that ends past the readable bytes raises `BufferFault`, from any cursor (R82, R83). -/
theorem ReadsField.exec_eq_raiseByteFault {cmd : TypeField → OrdField → XfField → Instr} {result : Nat → Nat → Int}
    (hcmd : ReadsField cmd result) (s : State) {t : DataType} {o : DataOrder} {x : DataTransformation}
    (hm : s.mode = .byte) (hl : legalCombination t o x = true) (hgt : s.wr < s.rd + typeWidth t) :
    exec (cmd (.known t) (.known o) (.known x)) s = raiseByteFault s := by
  rw [hcmd, requireMode_of_eq _ _ _ hm, readRaw, rawPlan_of_legal hl]
  simp only [s.consumeN_of_gt _ (typeWidth_pos t) hgt]

/-- Selectors that pass the argument checks are a legal combination (R75, R85). -/
theorem exists_legal_of_badSelectors_eq_false {ty : TypeField} {ord : OrdField} {xf : XfField}
    (h : badSelectors ty ord xf = false) :
    ∃ t o x, ty = .known t ∧ ord = .known o ∧ xf = .known x ∧ legalCombination t o x = true := by
  match ty, ord, xf with
  | .known t, .known o, .known x => exact ⟨t, o, x, rfl, rfl, rfl, by simpa [badSelectors] using h⟩
  | .unrecognised _, _, _ | .known _, .unrecognised _, _ | .known _, .known _, .unrecognised _ => cases h

/-- A fixed-width read in Byte mode: its selectors, then the bytes of the field (R82, R83, R85). -/
theorem ReadsField.endsInOrder {cmd : TypeField → OrdField → XfField → Instr} {result : Nat → Nat → Int}
    (hcmd : ReadsField cmd result) (s : State) (hm : s.mode = .byte) (ty : TypeField) (ord : OrdField) (xf : XfField)
    (hargs : badArguments (cmd ty ord xf) = badSelectors ty ord xf)
    (hshort : ∀ t, ty = .known t → (ShortOfBytes (cmd ty ord xf) s ↔ s.wr < s.rd + typeWidth t)) :
    EndsInOrder (cmd ty ord xf) s := by
  cases hbad : badSelectors ty ord xf with
  | true => exact .argument (hargs.trans hbad) (hcmd.exec_of_badSelectors s ty ord xf hm hbad)
  | false =>
    obtain ⟨t, o, x, rfl, rfl, rfl, hl⟩ := exists_legal_of_badSelectors_eq_false hbad
    have hiff := hshort t rfl
    rcases Nat.lt_or_ge s.wr (s.rd + typeWidth t) with hgt | hle
    · refine .extent (hargs.trans hbad) (hiff.2 hgt) ?_
      rw [hcmd.exec_eq_raiseByteFault s hm hl hgt, raiseFault_of_byte s hm]
    · exact .ok (hargs.trans hbad) (fun _ h => Nat.not_lt.2 hle (hiff.1 h))
        ⟨_, _, hcmd.exec_of_le s t o x hm hl hle, rfl, rfl⟩

/-- `GETSMART` in Byte mode: the byte it peeks at, then the second byte of the two-byte form (R88). -/
theorem endsInOrder_getsmart (s : State) (hm : s.mode = .byte) : EndsInOrder .getsmart s := by
  rcases Nat.lt_or_ge s.rd s.wr with hlt | hge
  · rcases Nat.lt_or_ge (s.byteAt s.rd).toNat 128 with hp | hp
    · refine .ok rfl (fun _ => ?_) ⟨_, _, exec_getsmart_oneByte s hm hlt hp, rfl, rfl⟩
      rw [ShortOfBytes]
      omega
    · rcases Nat.lt_or_ge (s.rd + 1) s.wr with hlt₂ | hge₂
      · refine .ok rfl (fun _ => ?_) ⟨_, _, exec_getsmart_twoBytes s hm hlt₂ hp, rfl, rfl⟩
        rw [ShortOfBytes]
        omega
      · refine .extent rfl (.inr ⟨by omega, hp⟩) ?_
        rw [exec_getsmart_of_ge_128 s hm hlt hp, smartLong_of_eq s (by omega), raiseFault_of_byte s hm]
  · refine .extent rfl (.inl (by omega)) ?_
    rw [exec_getsmart_of_ge s hm hge, raiseFault_of_byte s hm]

/-- An array command that is the loop of `n` bytes, in Byte mode: the bytes of its slots (R91). -/
theorem FillsSlots.endsInOrder {i : Instr} {n : Nat} {slots : List Byte → List Byte} (hi : FillsSlots i n slots)
    (s : State) (hm : s.mode = .byte) (hargs : badArguments i = false)
    (hshort : ShortOfBytes i s ↔ s.wr < s.rd + n) : EndsInOrder i s := by
  obtain ⟨-, hr⟩ | ⟨hc, -, hgt⟩ := s.consumeN_cases n
  · refine .ok hargs (fun hle h => ?_) ⟨_, _, hi.exec_of_readable s hm hr, rfl, rfl⟩
    have hgt := hshort.1 h
    omega
  · refine .extent hargs (hshort.2 hgt) ?_
    rw [hi, requireMode_of_eq _ _ _ hm, fillArray, hc, raiseFault_of_byte s hm]

/-- A transformed array command in Byte mode: its transformation where there is a slot to meet it, then the bytes of its
slots (R94, R95). -/
theorem FillsTransformed.endsInOrder {cmd : XfField → BitVec 16 → Instr} {layout : List Byte → List Byte}
    (hcmd : FillsTransformed cmd layout) (hlayout : layout [] = []) (xf : XfField) (n : BitVec 16) (s : State)
    (hm : s.mode = .byte) (hknown : ∀ x, badArguments (cmd (.known x) n) = false)
    (hunrec : ∀ c, badArguments (cmd (.unrecognised c) n) = (n != 0))
    (hshort : ShortOfBytes (cmd xf n) s ↔ s.wr < s.rd + n.toNat) : EndsInOrder (cmd xf n) s := by
  cases xf with
  | known x =>
    obtain ⟨slots, hfill, -⟩ := hcmd.exists_fillsSlots n hlayout x
    exact hfill.endsInOrder s hm (hknown x) hshort
  | unrecognised c =>
    have hexec := hcmd.exec_of_unrecognised n s c hm
    by_cases hn : n = 0
    · have hzero : n.toNat = 0 := congrArg BitVec.toNat hn
      refine .ok ((hunrec c).trans (bne_eq_false_iff_eq.2 hn)) (fun hle h => ?_)
        ⟨_, _, hexec.trans (if_pos hzero), rfl, rfl⟩
      have hgt := hshort.1 h
      omega
    · have hpos : n.toNat ≠ 0 := fun h0 => hn (BitVec.eq_of_toNat_eq h0)
      refine .argument ((hunrec c).trans (bne_iff_ne.2 hn)) ?_
      rw [hexec, if_neg hpos]
      exact answers_raise _ _

/-- `GETSTR` in Byte mode: a zero among the readable bytes (R97). -/
theorem endsInOrder_getstr (s : State) (hm : s.mode = .byte) : EndsInOrder .getstr s := by
  obtain ⟨l, hlt, hzero, hbefore, -⟩ | ⟨hnz, -⟩ := s.consumeText_cases
  · exact .ok rfl (fun _ h => h _ (Nat.le_add_right _ _) hlt hzero)
      ⟨_, _, exec_getstr_of_textLength s l hm ⟨hlt, hzero, hbefore⟩, rfl, rfl⟩
  · refine .extent rfl hnz ?_
    rw [exec_getstr_of_no_zero s hm hnz, raiseFault_of_byte s hm]

/-- `SWBIT` answers OK in either mode (R64). -/
theorem exec_swbit_answers_ok (s : State) : Answers .ok (exec .swbit s) := by
  cases hm : s.mode with
  | byte => exact ⟨_, _, exec_swbit_of_byte s hm, rfl, rfl⟩
  | bit => exact ⟨_, _, exec_swbit_of_bit s hm, rfl, rfl⟩

/-- `SWBYTE` answers OK in either mode (R65). -/
theorem exec_swbyte_answers_ok (s : State) : Answers .ok (exec .swbyte s) := by
  cases hm : s.mode with
  | byte => exact ⟨_, _, exec_swbyte_of_byte s hm, rfl, rfl⟩
  | bit => exact ⟨_, _, exec_swbyte_of_bit s hm, rfl, rfl⟩

/-- In Byte mode every command that requires it ends by its arguments and the bytes it needs. -/
theorem endsInOrder_of_needsByteMode (i : Instr) (s : State) (hi : needsByteMode i = true) (hm : s.mode = .byte) :
    EndsInOrder i s := by
  cases i with
  | swbit | swbyte | getbits a => cases hi
  | getu ty o x => exact readsField_getu.endsInOrder s hm ty o x rfl (by rintro t rfl; exact Iff.rfl)
  | gets ty o x => exact readsField_gets.endsInOrder s hm ty o x rfl (by rintro t rfl; exact Iff.rfl)
  | getsmart => exact endsInOrder_getsmart s hm
  | getbytes n => exact (fillsSlots_getbytes n).endsInOrder s hm rfl Iff.rfl
  | getbytesr n => exact (fillsSlots_getbytesr n).endsInOrder s hm rfl Iff.rfl
  | getbytesx x n =>
    exact fillsTransformed_getbytesx.endsInOrder rfl x n s hm (fun _ => rfl) (fun _ => rfl) Iff.rfl
  | getbytesrx x n =>
    exact fillsTransformed_getbytesrx.endsInOrder rfl x n s hm (fun _ => rfl) (fun _ => rfl) Iff.rfl
  | getstr => exact endsInOrder_getstr s hm
  | getlen => exact .ok rfl (fun _ => id) ⟨_, _, exec_getlen_of_byte s hm, rfl, rfl⟩
  | getrlen => exact .ok rfl (fun _ => id) ⟨_, _, exec_getrlen_of_byte s hm, rfl, rfl⟩

/-- Every command whose mode check passes ends by its arguments and the bytes it needs, from any cursor. -/
theorem endsInOrder_of_not_wrongMode (i : Instr) (s : State) (h : ¬ WrongMode i s) : EndsInOrder i s := by
  cases i with
  | swbit => exact .ok rfl (fun _ => id) (exec_swbit_answers_ok s)
  | swbyte => exact .ok rfl (fun _ => id) (exec_swbyte_answers_ok s)
  | getbits a =>
    cases hm : s.mode with
    | byte => exact absurd (.inr ⟨rfl, hm⟩) h
    | bit => exact endsInOrder_getbits a s hm
  | _ =>
    cases hm : s.mode with
    | byte => exact endsInOrder_of_needsByteMode _ s rfl hm
    | bit => exact absurd (.inl ⟨rfl, hm⟩) h

/-- Settles O42: past its mode check a command answers one of the other three statuses. -/
theorem wrongModeIsPrecise : Obligations.WrongModeIsPrecise := by
  refine ⟨fun i s h => ?_, fun i s h hmode => ?_, fun s => by simp [needsByteMode, needsBitMode]⟩
  · rw [exec_of_wrongMode i s h]
    exact raise_failsPrecisely _ s
  · cases endsInOrder_of_not_wrongMode i s h with
    | argument _ hends => cases hmode.unique hends
    | extent _ _ hends => cases hmode.unique (hends ▸ answers_raiseFault s)
    | ok _ _ hends => cases hmode.unique hends

/-- A `BufferFault` is the fault of R105 and has the cause of R104. -/
theorem exec_of_answers_bufferFault (i : Instr) (s : State) (h : Answers (.error .bufferFault) (exec i s)) :
    ¬ WrongMode i s ∧ badArguments i = false ∧ ShortOfBytes i s ∧ exec i s = raiseFault s := by
  have hmode : ¬ WrongMode i s := fun hw => by
    cases h.unique (exec_of_wrongMode i s hw ▸ answers_raise _ _)
  cases endsInOrder_of_not_wrongMode i s hmode with
  | argument _ hends => cases h.unique hends
  | extent hargs hshort hends => exact ⟨hmode, hargs, hshort, hends⟩
  | ok _ _ hends => cases h.unique hends

/-- A command past its checks of mode and arguments that needs a byte at or beyond `WR` answers `BufferFault`. -/
theorem exec_answers_bufferFault_of_short (i : Instr) (s : State) (hle : s.rd ≤ s.wr) (hmode : ¬ WrongMode i s)
    (hargs : badArguments i = false) (hshort : ShortOfBytes i s) : Answers (.error .bufferFault) (exec i s) := by
  cases endsInOrder_of_not_wrongMode i s hmode with
  | argument hbad => cases hargs.symm.trans hbad
  | extent _ _ hends => exact hends ▸ answers_raiseFault s
  | ok _ hfits => exact absurd hshort (hfits hle)

/-- Settles O43: the fault is drawn in the mode the unit is in. -/
theorem bufferFaultExactlyWhenShort : Obligations.BufferFaultExactlyWhenShort := by
  refine fun i s hle hcur => ⟨⟨fun h => ?_, fun ⟨hmode, hargs, hshort⟩ => ?_⟩, fun h hm => ?_, fun h hm => ?_⟩
  · obtain ⟨hmode, hargs, hshort, -⟩ := exec_of_answers_bufferFault i s h
    exact ⟨hmode, hargs, hshort⟩
  · exact exec_answers_bufferFault_of_short i s hle hmode hargs hshort
  · obtain ⟨-, -, -, hends⟩ := exec_of_answers_bufferFault i s h
    rw [hends, raiseFault_of_byte s hm]
    exact raiseByteFault_failsWith s hle
  · obtain ⟨-, -, -, hends⟩ := exec_of_answers_bufferFault i s h
    rw [hends, raiseFault_of_bit s hm]
    exact raiseBitFault_failsWith s hcur

/-- A command past its mode check with bad arguments answers `InvalidArgumentError`, ahead of the extent. -/
theorem exec_answers_invalidArgument (i : Instr) (s : State) (hmode : ¬ WrongMode i s)
    (hbad : badArguments i = true) : Answers (.error .invalidArgument) (exec i s) := by
  cases endsInOrder_of_not_wrongMode i s hmode with
  | argument _ hends => exact hends
  | extent hargs | ok hargs => cases hargs.symm.trans hbad

/-- A command past all its checks answers OK. -/
theorem exec_answers_ok (i : Instr) (s : State) (hmode : ¬ WrongMode i s) (hargs : badArguments i = false)
    (hfits : ¬ ShortOfBytes i s) : Answers .ok (exec i s) := by
  cases endsInOrder_of_not_wrongMode i s hmode with
  | argument hbad => cases hargs.symm.trans hbad
  | extent _ hshort => exact absurd hshort hfits
  | ok _ _ hends => exact hends

/-- Settles O44: each case of the order names the one way in which the command ends. -/
theorem errorPriority : Obligations.ErrorPriority := by
  refine ⟨fun w why s h => ?_, fun i s hle => ⟨fun hw => ?_, exec_answers_invalidArgument i s,
    exec_answers_bufferFault_of_short i s hle, exec_answers_ok i s⟩⟩
  · rw [runWord_of_illegal w s why h]
    exact answers_raise _ _
  · rw [exec_of_wrongMode i s hw]
    exact answers_raise _ _

end Sys2Proof.Machine
end

section
/-! Reset (R26, R116): what one step does with the host's `RST`. -/

namespace Sys2Proof.Machine

/-- A step takes the host's next action from the inputs (R120). -/
theorem step_of_inputs_cons (s : State) (i : Input) (rest : List Input) (h : s.inputs = i :: rest) :
    step s = acceptInput i (s.setInputs rest) := by
  rw [step, h]

/-- A reset of a unit whose buffer the host may release reset with is not refused (R116, U18). -/
theorem resetUnit_of_extents (s : State) (hrd : s.rd ≤ s.wr) (hwr : s.wr ≤ s.cap) :
    resetUnit s = .next { s with mode := .byte, bitcur := 0, rsp := none } :=
  if_pos ⟨hrd, hwr⟩

/-- Settles O8: taking `RST` from the inputs moves no extent, so the reset is not refused. -/
theorem resetSetsTheReader : Obligations.ResetSetsTheReader := by
  refine ⟨fun s rest hinputs hrd hwr => ?_, rfl, rfl, rfl⟩
  calc step s = resetUnit (s.setInputs rest) := step_of_inputs_cons s .rst rest hinputs
    _ = .next { s with inputs := rest, mode := .byte, bitcur := 0, rsp := none } :=
      resetUnit_of_extents (s.setInputs rest) hrd hwr

end Sys2Proof.Machine
end

section
/-! The encoding (R48 to R58). The opcode map masks whole fields, so matching a row is a condition on the word's fields:
the row's code, the reserved bits 0 and the unused fields 0, which is what the decoder checks. -/

namespace Sys2Proof

/-- Masking a word masks its fields. -/
theorem splitWord_and (w v : CmdWord) :
    splitWord (w &&& v) =
      { op := (splitWord w).op &&& (splitWord v).op, ty := (splitWord w).ty &&& (splitWord v).ty,
        ord := (splitWord w).ord &&& (splitWord v).ord, xf := (splitWord w).xf &&& (splitWord v).xf,
        rsv := (splitWord w).rsv &&& (splitWord v).rsv, imm := (splitWord w).imm &&& (splitWord v).imm } := by
  simp only [splitWord, BitVec.extractLsb'_and]

/-- A word is its fields. -/
theorem splitWord_inj {w v : CmdWord} : splitWord w = splitWord v ↔ w = v :=
  (Function.LeftInverse.injective joinWord_splitWord).eq_iff

/-- The fields a row masks: `OP` and `RSV` always, and those the operation does not use (R54, R55). -/
def Op.maskFields (o : Op) : WordFields :=
  { op := 0xF, ty := if o.usesTypeOrd then 0 else 0xF, ord := if o.usesTypeOrd then 0 else 0x7,
    xf := if o.usesXf then 0 else 0x7, rsv := 0x3, imm := if o.usesImm then 0 else 0xFFFF }

theorem Op.splitWord_row_mask (o : Op) : splitWord o.row.mask = o.maskFields := by cases o <;> decide

theorem Op.splitWord_row_pattern (o : Op) : splitWord o.row.pattern = ⟨o.code, 0, 0, 0, 0, 0⟩ := by
  cases o <;> decide

/-- A field under its mask is 0 exactly when it is used or 0. -/
theorem and_ite_eq_zero_iff {n : Nat} (used : Bool) (x : BitVec n) :
    x &&& (if used then 0#n else BitVec.allOnes n) = 0#n ↔ used = true ∨ x = 0#n := by
  cases used <;> simp

/-- A word matches an operation's row exactly when it passes the decoder's checks for that operation. -/
theorem Op.row_holds_iff (o : Op) (w : CmdWord) :
    o.row.holds w = true ↔
      o.code = (splitWord w).op ∧ (splitWord w).rsv = 0 ∧ unusedFieldsZero o (splitWord w) = true := by
  rw [MatchRow.holds, beq_iff_eq, ← splitWord_inj, splitWord_and, Op.splitWord_row_mask, Op.splitWord_row_pattern]
  generalize splitWord w = f
  have hop : f.op &&& 0xF = f.op := BitVec.and_allOnes
  have hrsv : f.rsv &&& 0x3 = f.rsv := BitVec.and_allOnes
  have hty := and_ite_eq_zero_iff o.usesTypeOrd f.ty
  have hord := and_ite_eq_zero_iff o.usesTypeOrd f.ord
  have hxf := and_ite_eq_zero_iff o.usesXf f.xf
  have himm := and_ite_eq_zero_iff o.usesImm f.imm
  rw [WordFields.mk.injEq]
  simp only [Op.maskFields, hop, hrsv, unusedFieldsZero, Bool.and_eq_true, Bool.or_eq_true, beq_iff_eq]
  constructor
  · rintro ⟨hcode, h₁, h₂, h₃, hr, h₄⟩
    exact ⟨hcode.symm, hr, ⟨or_and_left.2 ⟨hty.1 h₁, hord.1 h₂⟩, hxf.1 h₃⟩, himm.1 h₄⟩
  · rintro ⟨hcode, hr, ⟨h₁, h₂⟩, h₃⟩
    obtain ⟨h₁, h₁'⟩ := or_and_left.1 h₁
    exact ⟨hcode.symm, hty.2 h₁, hord.2 h₁', hxf.2 h₂, hr, himm.2 h₃⟩

/-- Two operations with one code are one. -/
theorem Op.code_inj {o o' : Op} (h : o.code = o'.code) : o = o' := by
  rw [← Option.some_inj, ← Op.ofCode_code o, ← Op.ofCode_code o', h]

/-- Settles O4: the row that matches is the operation the decoder finds. -/
theorem decodeIsTheOpcodeMap : Obligations.DecodeIsTheOpcodeMap := by
  intro w
  by_cases hrow : ∃ o : Op, o.row.holds w = true
  · obtain ⟨o, ho⟩ := hrow
    obtain ⟨hcode, hr, hu⟩ := (o.row_holds_iff w).1 ho
    refine .inl ⟨o, ho, fun o' ho' => ?_, decodeFields_of_code o _ hcode hr hu⟩
    exact Op.code_inj (((o'.row_holds_iff w).1 ho').1.trans hcode.symm)
  · refine .inr ⟨fun o => Bool.eq_false_iff.2 fun ho => hrow ⟨o, ho⟩, ?_⟩
    obtain hwhy | ⟨o, hcode, hr, hu, -⟩ := decodeFields_cases (splitWord w)
    · exact hwhy
    · exact absurd ⟨o, (o.row_holds_iff w).2 ⟨hcode, hr, hu⟩⟩ hrow

/-- A command's fields are in order for its operation (R54). -/
theorem Instr.fields_in_order (i : Instr) :
    i.op.code = i.fields.op ∧ i.fields.rsv = 0 ∧ unusedFieldsZero i.op i.fields = true := by
  cases i <;> exact ⟨rfl, rfl, rfl⟩

/-- A well-formed command is built again from its fields (R58). -/
theorem buildInstr_fields (i : Instr) (h : i.wf = true) : buildInstr i.op i.fields = i := by
  cases i with
  | getu t o x | gets t o x =>
    simp only [Instr.wf, Bool.and_eq_true] at h
    obtain ⟨⟨ht, ho⟩, hx⟩ := h
    simp only [buildInstr, Instr.op, Instr.fields, TypeField.ofCode_code t ht, OrdField.ofCode_code o ho,
      XfField.ofCode_code x hx]
  | getbytesx x n | getbytesrx x n =>
    simp only [buildInstr, Instr.op, Instr.fields, XfField.ofCode_code x h]
  | _ => rfl

/-- Settles O2: the encoder's fields pass the decoder's checks and rebuild the command. -/
theorem decodeOfEncodeIsTheCommand : Obligations.DecodeOfEncodeIsTheCommand := by
  intro i hwf
  obtain ⟨hcode, hr, hu⟩ := i.fields_in_order
  rw [decode_encode_fields, decodeFields_of_code i.op i.fields hcode hr hu, buildInstr_fields i hwf]

/-- A command built from fields is well formed: its selectors were read from codes (R50 to R52). -/
theorem buildInstr_wf (o : Op) (f : WordFields) : (buildInstr o f).wf = true := by
  have ht := (TypeField.code_ofCode f.ty).2
  have ho := (OrdField.code_ofCode f.ord).2
  have hx := (XfField.code_ofCode f.xf).2
  cases o with
  | getu | gets => simp only [buildInstr, Instr.wf, ht, ho, hx, Bool.and_self]
  | getbytesx | getbytesrx => exact hx
  | _ => rfl

/-- The fields of a command built from fields: those its operation uses, the others 0 (R54). -/
theorem fields_buildInstr (o : Op) (f : WordFields) :
    (buildInstr o f).fields =
      { op := o.code, ty := if o.usesTypeOrd then f.ty else 0, ord := if o.usesTypeOrd then f.ord else 0,
        xf := if o.usesXf then f.xf else 0, rsv := 0, imm := if o.usesImm then f.imm else 0 } := by
  have ht := (TypeField.code_ofCode f.ty).1
  have ho := (OrdField.code_ofCode f.ord).1
  have hx := (XfField.code_ofCode f.xf).1
  cases o with
  | getu | gets => simp only [buildInstr, Instr.fields, ht, ho, hx]; rfl
  | getbytesx | getbytesrx => simp only [buildInstr, Instr.fields, hx]; rfl
  | _ => rfl

/-- A field that is used or 0 is what its use leaves of it. -/
theorem ite_zero_eq_self {n : Nat} {used : Bool} {x : BitVec n} (h : used = true ∨ x = 0#n) :
    (if used then x else 0#n) = x := by
  rcases h with rfl | rfl
  · rfl
  · exact ite_self _

/-- Fields in order for an operation are those of the command built from them: no other field is spelled (R54). -/
theorem fields_buildInstr_of_inOrder (o : Op) (f : WordFields) (hcode : o.code = f.op) (hr : f.rsv = 0)
    (hu : unusedFieldsZero o f = true) : (buildInstr o f).fields = f := by
  simp only [unusedFieldsZero, Bool.and_eq_true, Bool.or_eq_true, beq_iff_eq] at hu
  obtain ⟨⟨htyord, hxf⟩, himm⟩ := hu
  obtain ⟨hty, hord⟩ := or_and_left.1 htyord
  rw [fields_buildInstr, WordFields.mk.injEq]
  exact ⟨hcode, ite_zero_eq_self hty, ite_zero_eq_self hord, ite_zero_eq_self hxf, hr.symm, ite_zero_eq_self himm⟩

/-- Settles O3: a command is built from a word's fields only where they are the command's own. -/
theorem everyCommandHasOneSpelling : Obligations.EveryCommandHasOneSpelling := by
  intro w i h
  rw [decode] at h
  obtain ⟨why, hwhy⟩ | ⟨o, hcode, hr, hu, hcmd⟩ := decodeFields_cases (splitWord w)
  · cases hwhy.symm.trans h
  · cases hcmd.symm.trans h
    refine ⟨buildInstr_wf o _, ?_⟩
    rw [encode, fields_buildInstr_of_inOrder o _ hcode hr hu, joinWord_splitWord]

/-- Settles O1: each word is evaluated. -/
theorem specWordsDecode : Obligations.SpecWordsDecode := by
  unfold Obligations.SpecWordsDecode
  decide

end Sys2Proof
end

section
/-! The step (R44, R116 to R119): a word, a reset, a reset inside a command, and a binding, taken from the host's
inputs; and the draws (R9). -/

namespace Sys2Proof.Machine

/-- Settles O6: the step takes the word from the inputs and executes what it decodes to. -/
theorem stepRunsTheDecodedCommand : Obligations.StepRunsTheDecodedCommand := by
  intro s w rest i hinputs hw
  rw [step_of_inputs_cons s _ rest hinputs, acceptInput, runWord, hw]
  rfl

/-- Settles O7: an idle unit has no input to take. -/
theorem idleStepKeepsTheState : Obligations.IdleStepKeepsTheState := by
  intro s hinputs
  rw [step, hinputs]

/-- A reset with the buffer's extents out of order is refused (U18). -/
theorem resetUnit_refused (s : State) (h : s.wr < s.rd ∨ s.cap < s.wr) : resetUnit s = .refused .badBinding :=
  if_neg (by omega)

/-- A command that does not move `RD` is abandoned by the reset alone (R117). -/
theorem abandonCommand_of_not_moving (i : Instr) (s : State) (h : movesRd i s.mode = false) :
    abandonCommand i s = resetUnit s := by
  rw [abandonCommand, h]
  rfl

/-- A command that moves `RD` is abandoned with `RD` drawn up to `WR` (R117). -/
theorem abandonCommand_of_moving (i : Instr) (s : State) (h : movesRd i s.mode = true) :
    abandonCommand i s = resetUnit (s.setRd (s.drawIn s.rd s.wr)).nextDraw := by
  rw [abandonCommand, if_pos h]

/-- A reset inside a command is not refused where a reset is not: the `RD` it draws is still in order (R117). -/
theorem abandonCommand_of_extents (i : Instr) (s : State) (hrd : s.rd ≤ s.wr) (hwr : s.wr ≤ s.cap) :
    ∃ t, abandonCommand i s = .next t := by
  cases hmoves : movesRd i s.mode with
  | false => exact ⟨_, (abandonCommand_of_not_moving i s hmoves).trans (resetUnit_of_extents s hrd hwr)⟩
  | true =>
    exact ⟨_, (abandonCommand_of_moving i s hmoves).trans
      (resetUnit_of_extents _ (s.drawIn_le _ _ hrd) hwr)⟩

/-- A reset inside a command is refused where a reset is: the `RD` it draws is not below the one before (U18). -/
theorem abandonCommand_refused (i : Instr) (s : State) (h : s.wr < s.rd ∨ s.cap < s.wr) :
    abandonCommand i s = .refused .badBinding := by
  cases hmoves : movesRd i s.mode with
  | false => exact (abandonCommand_of_not_moving i s hmoves).trans (resetUnit_refused s h)
  | true =>
    refine (abandonCommand_of_moving i s hmoves).trans (resetUnit_refused _ (h.imp_left fun hlt => ?_))
    exact hlt.trans_le (s.drawIn_ge _ _)

/-- The commands that leave `RD` where it was when a reset interrupts them (R15, R117). -/
theorem movesRd_eq_false (i : Instr) (m : Mode)
    (h : i = .swbit ∨ (∃ a, i = .getbits a) ∨ i = .getlen ∨ i = .getrlen ∨ (i = .swbyte ∧ m = .byte) ∨
      (needsByteMode i = true ∧ m = .bit)) : movesRd i m = false := by
  rcases h with rfl | ⟨a, rfl⟩ | rfl | rfl | ⟨rfl, rfl⟩ | ⟨hi, rfl⟩
  · rfl
  · rfl
  · rfl
  · rfl
  · rfl
  · cases i with
    | swbit | swbyte | getbits a => cases hi
    | _ => rfl

/-- Settles O9: an illegal word moves no cursor, and a command that does leaves `RD` in the drawn range. -/
theorem resetAbandonsTheCommand : Obligations.ResetAbandonsTheCommand := by
  intro s w rest hinputs hrd hwr
  rw [step_of_inputs_cons s _ rest hinputs, acceptInput, abandonWord]
  cases hw : decode w with
  | illegal why =>
    refine ⟨s.rd, s.draws, le_refl _, hrd, resetUnit_of_extents (s.setInputs rest) hrd hwr, fun _ => rfl, ?_⟩
    rintro i ⟨⟩
  | command i =>
    obtain ⟨t, hnext⟩ := abandonCommand_of_extents i (s.setInputs rest) hrd hwr
    obtain ⟨-, hle, hge, hstays, d, ht⟩ := abandonCommand_next i (s.setInputs rest) t hnext
    refine ⟨t.rd, d, hge, hle, hnext.trans (congrArg _ ht), ?_, ?_⟩
    · rintro ⟨why, ⟨⟩⟩
    · rintro _ ⟨⟩ hi
      exact hstays (movesRd_eq_false i s.mode hi)

/-- Settles O10: the bytes are placed from index 0 on, in canonical form. -/
theorem bindingPlacesTheBuffer : Obligations.BindingPlacesTheBuffer := by
  intro s b rest hinputs hrd hwr hcap
  have hnext : bindBuffer b (s.setInputs rest) =
      .next { (s.setInputs rest).setBuffer b with mode := .byte, bitcur := 0, rsp := none } :=
    (if_pos hcap).trans (resetUnit_of_extents _ hrd hwr)
  rw [step_of_inputs_cons s _ rest hinputs, acceptInput, hnext]
  refine ⟨_, rfl, rfl, rfl, rfl, rfl, rfl, rfl, rfl, Memory.place_wf 0 b.bytes, fun i h => ?_⟩
  calc (Memory.place 0 b.bytes).read i = (Memory.place 0 b.bytes).read (0 + i) := by rw [Nat.zero_add]
    _ = b.bytes.getD i Memory.blank := Memory.read_place 0 b.bytes i
    _ = b.bytes[i] := List.getD_eq_getElem _ _ h

/-- Settles O11: the binding's own check, and the check of the reset that ends each of the three inputs. -/
theorem badBindingIsRefused : Obligations.BadBindingIsRefused := by
  refine ⟨fun s b rest hinputs hbad => ?_, fun s a rest hinputs ha hbad => ?_⟩
  · rw [step_of_inputs_cons s _ rest hinputs, acceptInput, bindBuffer]
    split
    · refine resetUnit_refused _ ?_
      show b.wr < b.rd ∨ b.bytes.length < b.wr
      omega
    · rfl
  · rw [step_of_inputs_cons s a rest hinputs]
    obtain rfl | ⟨w, rfl⟩ := ha
    · exact resetUnit_refused (s.setInputs rest) hbad
    · rw [acceptInput, abandonWord]
      split
      · exact abandonCommand_refused _ (s.setInputs rest) hbad
      · exact resetUnit_refused (s.setInputs rest) hbad

/-- Settles O46: the distance from the low end picks the value. -/
theorem everyDrawValueIsAdmitted : Obligations.EveryDrawValueIsAdmitted := by
  intro lo hi v hlo hhi
  refine ⟨⟨v - lo, ?_⟩, fun k => ⟨drawFrom_ge k lo hi, drawFrom_le k lo hi (hlo.trans hhi)⟩⟩
  rw [drawFrom, Nat.mod_eq_of_lt (by omega)]
  omega

end Sys2Proof.Machine
end

section
/-! The error matrix (R106): each cause of an error is one the command can have. -/

namespace Sys2Proof.Machine

/-- A command with a mode check can fail it. -/
theorem invalidMode_mem_canRaise (i : Instr) (s : State) (h : WrongMode i s) : .invalidMode ∈ canRaise i := by
  cases i with
  | swbit | swbyte => obtain ⟨⟨⟩, -⟩ | ⟨⟨⟩, -⟩ := h
  | _ => exact List.mem_cons_self

/-- A command whose arguments can be bad can say so. -/
theorem invalidArgument_mem_canRaise (i : Instr) (h : badArguments i = true) : .invalidArgument ∈ canRaise i := by
  cases i with
  | getbits | getu | gets | getbytesx | getbytesrx => exact List.mem_cons_of_mem _ List.mem_cons_self
  | _ => cases h

/-- A command that can need a byte can run out of them. -/
theorem bufferFault_mem_canRaise (i : Instr) (s : State) (h : ShortOfBytes i s) : .bufferFault ∈ canRaise i := by
  cases i with
  | swbit | swbyte | getlen | getrlen => exact h.elim
  | _ => simp [canRaise]

/-- Settles O45: an error has one of the three causes, and each cause has its command. -/
theorem errorMatrix : Obligations.ErrorMatrix := by
  intro i s e he
  by_cases hw : WrongMode i s
  · cases he.unique (exec_of_wrongMode i s hw ▸ answers_raise _ _)
    exact invalidMode_mem_canRaise i s hw
  · cases endsInOrder_of_not_wrongMode i s hw with
    | argument hargs hends =>
      cases he.unique hends
      exact invalidArgument_mem_canRaise i hargs
    | extent _ hshort hends =>
      cases he.unique (hends ▸ answers_raiseFault s)
      exact bufferFault_mem_canRaise i s hshort
    | ok _ _ hends => cases he.unique hends

end Sys2Proof.Machine
end

section
/-! The bijection of R86 between the byte strings of a field and its values, with the involutions of R77 and the laws of
R87 and R37. A value is told byte by byte, so a field's value is `v` exactly when each stream byte is the byte of `v` in
its place, the low one transformed back. -/

namespace Sys2Proof.Machine

/-- Each transformation undoes itself (R77). -/
theorem transformByte_transformByte (x : DataTransformation) (r : Byte) : transformByte x (transformByte x r) = r := by
  cases x with
  | none => rfl
  | add =>
    calc r - 128 - 128 = r - (128 + 128) := sub_sub r 128 128
      _ = r := sub_zero r
  | subtract => exact sub_sub_cancel 128 r
  | negate => exact BitVec.neg_neg

/-- Settles O24: `ADD` is subtraction of the top bit, which flips it. -/
theorem transformationsAreInvolutions : Obligations.TransformationsAreInvolutions := by
  refine ⟨transformByte_transformByte, fun r => ⟨?_, ?_⟩⟩
  · simp only [transformByte]
    decide +revert
  · exact (neg_sub r 128).symm

/-- A transformed byte is `c` exactly when the byte is `c` transformed. -/
theorem transformByte_eq_iff (x : DataTransformation) (r c : Byte) : transformByte x r = c ↔ r = transformByte x c := by
  constructor <;> rintro rfl <;> rw [transformByte_transformByte]

/-- The bytes of a value are determined by it: the low one is its remainder by 256 and the others are its quotient's. -/
theorem sum_bytes_eq_iff (c : Nat → Byte) (n v : Nat) (hv : v < 2 ^ (8 * n)) :
    ∑ j ∈ Finset.range n, (c j).toNat * 2 ^ (8 * j) = v ↔ ∀ j < n, c j = BitVec.ofNat 8 (v / 2 ^ (8 * j)) := by
  induction n generalizing c v with
  | zero =>
    obtain rfl : v = 0 := by omega
    simp
  | succ n ih =>
    have hshift (j : Nat) : 2 ^ (8 * (j + 1)) = 256 * 2 ^ (8 * j) := by
      rw [Nat.mul_succ, Nat.pow_add, Nat.mul_comm]
    have hrest := ih (fun j => c (j + 1)) (v / 256) (by rw [hshift] at hv; omega)
    have hlow : c 0 = BitVec.ofNat 8 v ↔ (c 0).toNat = v % 256 := by
      rw [← BitVec.toNat_inj, BitVec.toNat_ofNat]
    have hc := (c 0).isLt
    rw [Finset.sum_range_succ', Nat.forall_lt_succ_left]
    simp only [hshift, Nat.mul_left_comm _ 256, ← Finset.mul_sum, ← Nat.div_div_eq_div_mul, ← hrest, Nat.mul_zero,
      Nat.pow_zero, Nat.mul_one, Nat.div_one, hlow]
    omega

/-- The byte in the place of stream byte `k` is that of `v` exactly when the stream byte is the one that stands for
it. -/
theorem placedByte_eq_iff (o : DataOrder) (x : DataTransformation) (w : Nat) (b : Nat → Byte) (v k : Nat)
    (hw : isMiddleOrder o = true → w = 4) (hk : k < w) :
    placedByte o x w b (bytePlace o w k) = BitVec.ofNat 8 (v / 2 ^ (8 * bytePlace o w k)) ↔
      b k = fieldByte o x w v k := by
  rw [placedByte, fieldByte, bytePlace_bytePlace o w hw k hk]
  by_cases h0 : bytePlace o w k = 0
  · rw [if_pos h0, if_pos h0, h0, transformByte_eq_iff, Nat.mul_zero, Nat.pow_zero, Nat.div_one]
  · rw [if_neg h0, if_neg h0]

/-- A field has the value `v` exactly when its bytes are the byte string that stands for `v` (R86). -/
theorem placedValue_eq_iff (o : DataOrder) (x : DataTransformation) (w : Nat) (b : Nat → Byte) (v : Nat)
    (hw : isMiddleOrder o = true → w = 4) (hv : v < 2 ^ (8 * w)) :
    placedValue o x w b = v ↔ ∀ k < w, b k = fieldByte o x w v k := by
  rw [placedValue_eq_sum o x w b hw, sum_bytes_eq_iff _ w v hv]
  refine ⟨fun h k hk => ?_, fun h j hj => ?_⟩
  · exact (placedByte_eq_iff o x w b v k hw hk).1 (h _ (bytePlace_lt o w hw k hk))
  · have hj' := bytePlace_lt o w hw j hj
    have hplace := (placedByte_eq_iff o x w b v _ hw hj').2 (h _ hj')
    rwa [bytePlace_bytePlace o w hw j hj] at hplace

/-- `RES` tells values below `2^64` apart (R23). -/
theorem okResponse_natCast_inj {u v : Nat} (hu : u < 2 ^ 64) (hv : v < 2 ^ 64) :
    okResponse u [] = okResponse v [] ↔ u = v := by
  refine ⟨fun h => ?_, fun h => h ▸ rfl⟩
  rw [okResponse, okResponse, Option.some.injEq, Response.mk.injEq, BitVec.ofInt_natCast, BitVec.ofInt_natCast] at h
  obtain ⟨-, hres, -⟩ := h
  have hnat := congrArg BitVec.toNat hres
  rwa [BitVec.toNat_ofNat, BitVec.toNat_ofNat, Nat.mod_eq_of_lt hu, Nat.mod_eq_of_lt hv] at hnat

/-- Settles O30: the answer is the placed value, and `RES` holds all of it. -/
theorem fixedWidthRoundTrip : Obligations.FixedWidthRoundTrip := by
  intro s t o x v hm hl hle hv
  have hwide : 2 ^ (8 * typeWidth t) ≤ 2 ^ 64 :=
    Nat.pow_le_pow_right (by decide) (Nat.mul_le_mul_left 8 (typeWidth_le t))
  have hanswer := readsField_getu.exec_of_le s t o x hm hl hle
  have hfield : s.fieldValue o x (typeWidth t) = v ↔ _ :=
    placedValue_eq_iff o x _ (fun k => s.byteAt (s.rd + k)) v (typeWidth_of_legal hl) hv
  rw [← hfield, ← okResponse_natCast_inj ((s.fieldValue_lt hl).trans_le hwide) (hv.trans_le hwide), hanswer]
  constructor
  · intro h
    injection h with h
    exact congrArg State.rsp h
  · intro h
    rw [h]

/-- A one-byte field is the same under `BIG` and under `LITTLE` (R87). -/
theorem readRaw_byte_big (xf : XfField) (result : Nat → Nat → Int) (s : State) :
    readRaw (.known .byte) (.known .big) xf result s = readRaw (.known .byte) (.known .little) xf result s := by
  cases xf with
  | known x => rfl
  | unrecognised c => rfl

/-- Under `BIG` the first byte stands above the value of the rest (R87). -/
theorem assemble_big_succ (w : Nat) (b : Nat → Byte) (hw : 1 ≤ w) :
    assemble .big .none (w + 1) b = (b 0).toNat * 2 ^ (8 * w) + assemble .big .none w fun k => b (k + 1) := by
  obtain ⟨n, rfl⟩ : ∃ n, w = n + 1 := ⟨w - 1, by omega⟩
  have hplace (k : Nat) : n + 1 - (k + 1) = n - k := Nat.add_sub_add_right _ _ _
  simp only [assemble, sumTo_eq_sum, Nat.add_sub_cancel, Finset.sum_range_succ' _ n, hplace, Nat.sub_zero,
    Nat.shiftLeft_eq]
  omega

/-- Settles O31: one byte has one order, and the sum of a `BIG` field begins with its first byte. -/
theorem bigOrderLaws : Obligations.BigOrderLaws := by
  refine ⟨fun s x => ⟨?_, ?_⟩, assemble_big_succ⟩
  · rw [readsField_getu, readsField_getu, readRaw_byte_big]
  · rw [readsField_gets, readsField_gets, readRaw_byte_big]

/-- The run of a byte's eight bits is the byte (R37). -/
theorem State.bitRun_eight (s : State) (i : Nat) : s.bitRun (8 * i) 8 = (s.byteAt i).toNat := by
  have hrun := s.bitRun_of_byte i 0 8 (le_refl 8)
  have hlt := (s.byteAt i).isLt
  rw [and_bitMask, Nat.sub_zero, Nat.sub_self, Nat.shiftRight_zero, Nat.mod_eq_of_lt hlt] at hrun
  exact hrun

/-- From an aligned cursor the run of `w` bytes is their `BIG` value (R37). -/
theorem State.bitRun_bytes (s : State) (i w : Nat) (hw : 1 ≤ w) :
    s.bitRun (8 * i) (8 * w) = assemble .big .none w fun k => s.byteAt (i + k) := by
  induction w, hw using Nat.le_induction generalizing i with
  | base => simpa [assemble, sumTo, transformByte] using s.bitRun_eight i
  | succ w hw ih =>
    have hnext : 8 * i + 8 = 8 * (i + 1) := by omega
    rw [assemble_big_succ w _ hw, Nat.mul_succ, Nat.add_comm (8 * w), s.bitRun_add, s.bitRun_eight, hnext, ih]
    simp only [Nat.add_assoc, Nat.add_comm 1, Nat.add_zero]

/-- Settles O21: both views answer the field's `BIG` value. -/
theorem bitViewEqualsByteView : Obligations.BitViewEqualsByteView := by
  intro s p t a ht ha hle
  have hl : legalCombination t .big .none = true := rfl
  have hpos := typeWidth_pos t
  have hwidth : typeWidth t ≤ 4 := by
    cases t with
    | long => exact absurd rfl ht
    | _ => decide
  have hbits := exec_getbits_of_le a { s with mode := .bit, bitcur := 8 * p } rfl (by omega) (by omega)
    (show 8 * p + a.toNat ≤ 8 * s.wr by omega)
  have hbytes := readsField_getu.exec_of_le { s with mode := .byte, rd := p } t .big .none rfl hl hle
  have hrun : State.bitRun { s with mode := .bit, bitcur := 8 * p } (8 * p) a.toNat =
      State.fieldValue { s with mode := .byte, rd := p } .big .none (typeWidth t) := by
    rw [ha, State.bitRun_bytes _ p _ hpos, assemble_eq_placedValue _ hl]
    rfl
  exact ⟨_, State.fieldValue_lt _ hl, hrun ▸ hbits, hbytes⟩

end Sys2Proof.Machine
end

section
/-! Bit runs in sequence and the four laws of the switches (R40, R66, R73). -/

namespace Sys2Proof.Machine

/-- Settles O22: the run's end, rounded up to a byte, is less than five bytes after the byte of its first bit. -/
theorem bitRunTouchesAtMostFiveBytes : Obligations.BitRunTouchesAtMostFiveBytes := by
  intro c a h1 h32
  have hend := firstByte_add_spanBytes c a h1
  have hfirst : firstByte c = c / 8 := Nat.shiftRight_eq_div_pow c 3
  omega

/-- Settles O20: a run is its first piece above its second (R68). -/
theorem getbitsSplits : Obligations.GetbitsSplits := by
  intro s a b c hm ha hb hc h32 hle
  have hfirst := exec_getbits_of_le a s hm ha (by omega) (by omega)
  have hwhole := exec_getbits_of_le c s hm (by omega) h32 hle
  have hsecond := exec_getbits_of_le b
    { s with bitcur := s.bitcur + a.toNat, rsp := okResponse (sext 32 (s.bitRun s.bitcur a.toNat)) [] } hm hb (by omega)
    (show s.bitcur + a.toNat + b.toNat ≤ 8 * s.wr by omega)
  refine ⟨_, s.bitRun (s.bitcur + a.toNat) b.toNat, s.bitRun_lt _ _, s.bitRun_lt _ _, hfirst, ?_, ?_⟩
  · rw [hc, ← Nat.add_assoc]
    exact hsecond
  · rw [← s.bitRun_add, ← hc]
    exact hwhole

@[simp] theorem andThen_next (t : State) (k : State → StepResult) : andThen (.next t) k = k t := rfl

/-- There and back: `RD` is the cursor `SWBIT` loaded, for it is aligned (R66, law 1). -/
theorem exec_swbit_swbyte (s : State) (hm : s.mode = .byte) :
    andThen (exec .swbit s) (exec .swbyte) = .next { s with bitcur := 8 * s.rd, rsp := okResponse 0 [] } := by
  have hrd : (8 * s.rd + 7) / 8 = s.rd := by omega
  rw [exec_swbit_of_byte s hm, andThen_next, exec_swbyte_of_bit _ rfl]
  simp only [Nat.mul_comm s.rd, hrd, ← hm]

/-- A run read between the switches advances `RD` past every byte it touched (R66, law 2). -/
theorem exec_swbit_getbits_swbyte (s : State) (a : BitVec 16) (hm : s.mode = .byte) (h1 : 1 ≤ a.toNat)
    (h32 : a.toNat ≤ 32) (hle : 8 * s.rd + a.toNat ≤ 8 * s.wr) :
    andThen (andThen (exec .swbit s) (exec (.getbits a))) (exec .swbyte) =
      .next { s with rd := s.rd + (a.toNat + 7) / 8, bitcur := 8 * s.rd + a.toNat, rsp := okResponse 0 [] } := by
  have hrd : (8 * s.rd + a.toNat + 7) / 8 = s.rd + (a.toNat + 7) / 8 := by omega
  rw [exec_swbit_of_byte s hm, andThen_next,
    exec_getbits_of_le a _ rfl h1 h32 (show s.rd * 8 + a.toNat ≤ 8 * s.wr by omega), andThen_next,
    exec_swbyte_of_bit _ rfl]
  simp only [Nat.mul_comm s.rd, hrd, ← hm]

/-- A second `SWBIT` only answers again (R66, law 3). -/
theorem exec_swbit_swbit (s : State) : andThen (exec .swbit s) (exec .swbit) = exec .swbit s := by
  cases hm : s.mode with
  | byte => rw [exec_swbit_of_byte s hm, andThen_next, exec_swbit_of_bit _ rfl]
  | bit => rw [exec_swbit_of_bit s hm, andThen_next, exec_swbit_of_bit { s with rsp := okResponse 0 [] } hm]

/-- A second `SWBYTE` only answers again (R66, law 3). -/
theorem exec_swbyte_swbyte (s : State) : andThen (exec .swbyte s) (exec .swbyte) = exec .swbyte s := by
  cases hm : s.mode with
  | byte => rw [exec_swbyte_of_byte s hm, andThen_next, exec_swbyte_of_byte { s with rsp := okResponse 0 [] } hm]
  | bit => rw [exec_swbyte_of_bit s hm, andThen_next, exec_swbyte_of_byte _ rfl]

/-- Out and in again drops the rest of the started byte (R66, law 4). -/
theorem exec_swbyte_swbit (s : State) (hm : s.mode = .bit) :
    andThen (exec .swbyte s) (exec .swbit) =
      .next { s with rd := (s.bitcur + 7) / 8, bitcur := 8 * ((s.bitcur + 7) / 8), rsp := okResponse 0 [] } := by
  rw [exec_swbyte_of_bit s hm, andThen_next, exec_swbit_of_byte _ rfl]
  simp only [Nat.mul_comm (_ / 8), ← hm]

/-- Settles O14: the four laws, each by the closed forms of the commands in it. -/
theorem modeSwitchLaws : Obligations.ModeSwitchLaws :=
  ⟨exec_swbit_swbyte, exec_swbit_getbits_swbyte, fun s => ⟨exec_swbit_swbit s, exec_swbyte_swbyte s⟩,
    exec_swbyte_swbit⟩

end Sys2Proof.Machine
end

section
/-! The range of `GETSMART` (R90). -/

namespace Sys2Proof.Machine

/-- The two-byte value minus 49152 and the byte minus 64 are their own containers (R90). -/
theorem toInt_ofInt_of_smart {v : Int} (hlo : -16384 ≤ v) (hhi : v ≤ 16383) : (BitVec.ofInt 64 v).toInt = v :=
  BitVec.toInt_ofInt_eq_self (by decide) (by omega) (by omega)

/-- Settles O34: a command that answers OK took one of the two forms, and bit 7 of the first byte chose it. -/
theorem getsmartRange : Obligations.GetsmartRange := by
  intro s t r hm hexec hrsp hok
  have hfirst := (s.byteAt s.rd).isLt
  have hbit : (s.byteAt s.rd).getLsbD 7 = decide (128 ≤ (s.byteAt s.rd).toNat) :=
    (BitVec.msb_eq_getLsbD_last _).symm.trans (BitVec.msb_eq_decide _)
  rcases Nat.lt_or_ge s.rd s.wr with hlt | hge
  · rcases Nat.lt_or_ge (s.byteAt s.rd).toNat 128 with hp | hp
    · cases (exec_getsmart_oneByte s hm hlt hp).symm.trans hexec
      cases hrsp
      rw [toInt_ofInt_of_smart (by omega) (by omega), hbit, decide_eq_false (by omega)]
      exact ⟨by omega, by omega, rfl, rfl⟩
    · rcases Nat.lt_or_ge (s.rd + 1) s.wr with hlt₂ | hge₂
      · have hsecond := (s.byteAt (s.rd + 1)).isLt
        cases (exec_getsmart_twoBytes s hm hlt₂ hp).symm.trans hexec
        cases hrsp
        rw [toInt_ofInt_of_smart (by omega) (by omega), hbit, decide_eq_true hp]
        exact ⟨by omega, by omega, rfl, rfl⟩
      · rw [exec_getsmart_of_ge_128 s hm hlt hp, smartLong_of_eq s (by omega)] at hexec
        cases hexec
        cases hrsp
        cases hok
  · rw [exec_getsmart_of_ge s hm hge] at hexec
    cases hexec
    cases hrsp
    cases hok

end Sys2Proof.Machine
end

section
/-! How a command ends, as a move of the cursors (R15, R41, R105). A command moves the cursor of the
mode it found within the readable data and leaves the other; a switch hands the cursor over instead. This is said once, for every
command and every state, and the frame, the motion of the cursors and the invariant of R25 are read off it. -/

namespace Sys2Proof.Machine

/-- The ways a command can end. From a cursor beyond `WR`, which R25 excludes, a move of 0 ends OK all the same (log
entry 11). -/
inductive EndsAs (i : Instr) (s : State) : Prop where
  | raises (e : ErrorKind) (h : exec i s = raise e s)
  | drawsRd (e : ErrorKind) (hi : Nat) (hm : s.mode = .byte) (hrange : s.rd ≤ s.wr → s.rd ≤ hi ∧ hi ≤ s.wr)
      (h : exec i s = raise e (s.setRd (s.drawIn s.rd hi)))
  | drawsBitcur (hm : s.mode = .bit) (h : exec i s = raiseBitFault s)
  | consumes (n : Nat) (v : Int) (out : List Byte) (hm : s.mode = .byte) (hn : n = 0 ∨ s.rd + n ≤ s.wr)
      (h : exec i s = .next { s with rd := s.rd + n, rsp := okResponse v out })
  | extracts (a : Nat) (v : Int) (hm : s.mode = .bit) (ha : a = 0 ∨ s.bitcur + a ≤ 8 * s.wr)
      (h : exec i s = .next { s with bitcur := s.bitcur + a, rsp := okResponse v [] })
  | entersBit (hi : i = .swbit) (hm : s.mode = .byte)
      (h : exec i s = .next { s with mode := .bit, bitcur := s.rd * 8, rsp := okResponse 0 [] })
  | entersByte (hi : i = .swbyte) (hm : s.mode = .bit)
      (h : exec i s = .next { s with mode := .byte, rd := (s.bitcur + 7) / 8, rsp := okResponse 0 [] })

/-- A command that only answers, in Byte mode. -/
theorem EndsAs.answers {i : Instr} {s : State} (v : Int) (hm : s.mode = .byte)
    (h : exec i s = .next { s with rsp := okResponse v [] }) : EndsAs i s :=
  .consumes 0 v [] hm (.inl rfl) h

/-- `BufferFault` in Byte mode draws `RD` up to `WR` (R105). -/
theorem EndsAs.byteFault {i : Instr} {s : State} (hm : s.mode = .byte) (h : exec i s = raiseByteFault s) :
    EndsAs i s :=
  .drawsRd .bufferFault s.wr hm (fun hle => ⟨hle, le_refl _⟩) h

/-- An error inside a field draws `RD` in the field's readable bytes (R81). -/
theorem EndsAs.midField {i : Instr} {s : State} (w : Nat) (hm : s.mode = .byte) (h : exec i s = raiseMidField w s) :
    EndsAs i s :=
  .drawsRd .invalidArgument (min (s.rd + w) s.wr) hm (fun hle => ⟨le_min (Nat.le_add_right _ _) hle, min_le_right _ _⟩)
    h

theorem endsAs_getbits (a : BitVec 16) (s : State) (hm : s.mode = .bit) : EndsAs (.getbits a) s := by
  by_cases ha : a.toNat < 1 ∨ 32 < a.toNat
  · exact .raises .invalidArgument ((requireMode_of_eq .bit s _ hm).trans (if_pos ha))
  · obtain ⟨h1, h32⟩ : 1 ≤ a.toNat ∧ a.toNat ≤ 32 := by omega
    rcases Nat.lt_or_ge (8 * s.wr) (s.bitcur + a.toNat) with hgt | hle
    · exact .drawsBitcur hm ((exec_getbits_of_amount a s hm h1 h32).trans (extractBits_of_gt _ s h1 hgt))
    · exact .extracts _ _ hm (.inr hle) (exec_getbits_of_le a s hm h1 h32 hle)

theorem ReadsField.endsAs {cmd : TypeField → OrdField → XfField → Instr} {result : Nat → Nat → Int}
    (hcmd : ReadsField cmd result) (ty : TypeField) (ord : OrdField) (xf : XfField) (s : State) (hm : s.mode = .byte) :
    EndsAs (cmd ty ord xf) s := by
  cases hbad : badSelectors ty ord xf with
  | true =>
    obtain hr | ⟨w, hw⟩ := rawPlan_of_badSelectors ty ord xf hbad
    · refine .raises .invalidArgument ?_
      rw [hcmd, requireMode_of_eq _ _ _ hm, readRaw, hr]
    · exact .midField w hm (hcmd.exec_of_rejectMidField s hm hw)
  | false =>
    obtain ⟨t, o, x, rfl, rfl, rfl, hl⟩ := exists_legal_of_badSelectors_eq_false hbad
    rcases Nat.lt_or_ge s.wr (s.rd + typeWidth t) with hgt | hle
    · exact .byteFault hm (hcmd.exec_eq_raiseByteFault s hm hl hgt)
    · exact .consumes _ _ _ hm (.inr hle) (hcmd.exec_of_le s t o x hm hl hle)

theorem endsAs_getsmart (s : State) (hm : s.mode = .byte) : EndsAs .getsmart s := by
  rcases Nat.lt_or_ge s.rd s.wr with hlt | hge
  · rcases Nat.lt_or_ge (s.byteAt s.rd).toNat 128 with hp | hp
    · exact .consumes 1 _ _ hm (.inr hlt) (exec_getsmart_oneByte s hm hlt hp)
    · rcases Nat.lt_or_ge (s.rd + 1) s.wr with hlt₂ | hge₂
      · exact .consumes 2 _ _ hm (.inr hlt₂) (exec_getsmart_twoBytes s hm hlt₂ hp)
      · exact .byteFault hm ((exec_getsmart_of_ge_128 s hm hlt hp).trans (smartLong_of_eq s (by omega)))
  · exact .byteFault hm (exec_getsmart_of_ge s hm hge)

theorem FillsSlots.endsAs {i : Instr} {n : Nat} {slots : List Byte → List Byte} (hi : FillsSlots i n slots) (s : State)
    (hm : s.mode = .byte) : EndsAs i s := by
  obtain ⟨-, hr⟩ | ⟨hc, -⟩ := s.consumeN_cases n
  · exact .consumes _ _ _ hm hr (hi.exec_of_readable s hm hr)
  · refine .byteFault hm ?_
    rw [hi, requireMode_of_eq _ _ _ hm, fillArray, hc]

theorem FillsTransformed.endsAs {cmd : XfField → BitVec 16 → Instr} {layout : List Byte → List Byte}
    (hcmd : FillsTransformed cmd layout) (hlayout : layout [] = []) (xf : XfField) (n : BitVec 16) (s : State)
    (hm : s.mode = .byte) : EndsAs (cmd xf n) s := by
  cases xf with
  | known x =>
    obtain ⟨slots, hfill, -⟩ := hcmd.exists_fillsSlots n hlayout x
    exact hfill.endsAs s hm
  | unrecognised c =>
    have hexec := hcmd.exec_of_unrecognised n s c hm
    by_cases hn : n.toNat = 0
    · exact .answers 0 hm (hexec.trans (if_pos hn))
    · exact .midField 1 hm (hexec.trans (if_neg hn))

theorem endsAs_getstr (s : State) (hm : s.mode = .byte) : EndsAs .getstr s := by
  obtain ⟨l, hlt, hzero, hbefore, -⟩ | ⟨hnz, -⟩ := s.consumeText_cases
  · exact .consumes (l + 1) _ _ hm (.inr hlt) (exec_getstr_of_textLength s l hm ⟨hlt, hzero, hbefore⟩)
  · exact .byteFault hm (exec_getstr_of_no_zero s hm hnz)

theorem endsAs_of_needsByteMode (i : Instr) (s : State) (hi : needsByteMode i = true) (hm : s.mode = .byte) :
    EndsAs i s := by
  cases i with
  | swbit | swbyte | getbits a => cases hi
  | getu t o x => exact readsField_getu.endsAs t o x s hm
  | gets t o x => exact readsField_gets.endsAs t o x s hm
  | getsmart => exact endsAs_getsmart s hm
  | getbytes n => exact (fillsSlots_getbytes n).endsAs s hm
  | getbytesr n => exact (fillsSlots_getbytesr n).endsAs s hm
  | getbytesx x n => exact fillsTransformed_getbytesx.endsAs rfl x n s hm
  | getbytesrx x n => exact fillsTransformed_getbytesrx.endsAs rfl x n s hm
  | getstr => exact endsAs_getstr s hm
  | getlen => exact .answers _ hm (exec_getlen_of_byte s hm)
  | getrlen => exact .answers _ hm (exec_getrlen_of_byte s hm)

/-- Every command ends in one of the ways, from every state. -/
theorem endsAs (i : Instr) (s : State) : EndsAs i s := by
  by_cases hw : WrongMode i s
  · exact .raises .invalidMode (exec_of_wrongMode i s hw)
  · cases hm : s.mode with
    | byte =>
      cases i with
      | swbit => exact .entersBit rfl hm (exec_swbit_of_byte s hm)
      | swbyte => exact .answers 0 hm (exec_swbyte_of_byte s hm)
      | getbits a => exact absurd (.inr ⟨rfl, hm⟩) hw
      | _ => exact endsAs_of_needsByteMode _ s rfl hm
    | bit =>
      cases i with
      | swbit => exact .extracts 0 0 hm (.inl rfl) (exec_swbit_of_bit s hm)
      | swbyte => exact .entersByte rfl hm (exec_swbyte_of_bit s hm)
      | getbits a => exact endsAs_getbits a s hm
      | _ => exact absurd (.inl ⟨rfl, hm⟩) hw

/-- No command but a switch changes the mode (R62). -/
theorem exec_mode (i : Instr) (s t : State) (hbit : i ≠ .swbit) (hbyte : i ≠ .swbyte) (h : exec i s = .next t) :
    t.mode = s.mode := by
  cases endsAs i s with
  | raises e hend | drawsRd e hi hm hrange hend | drawsBitcur hm hend | consumes n v out hm hn hend
  | extracts a v hm ha hend =>
    cases hend.symm.trans h
    rfl
  | entersBit hi => exact absurd hi hbit
  | entersByte hi => exact absurd hi hbyte

/-- `SWBIT` ends in Bit mode (R62). -/
theorem exec_swbit_mode (s t : State) (h : exec .swbit s = .next t) : t.mode = .bit := by
  cases hm : s.mode with
  | byte => cases (exec_swbit_of_byte s hm).symm.trans h; rfl
  | bit => cases (exec_swbit_of_bit s hm).symm.trans h; exact hm

/-- `SWBYTE` ends in Byte mode (R62). -/
theorem exec_swbyte_mode (s t : State) (h : exec .swbyte s = .next t) : t.mode = .byte := by
  cases hm : s.mode with
  | byte => cases (exec_swbyte_of_byte s hm).symm.trans h; exact hm
  | bit => cases (exec_swbyte_of_bit s hm).symm.trans h; rfl

/-- Settles O15: only the switches hand the cursor over, and an illegal word only raises its error. -/
theorem onlySwitchesChangeMode : Obligations.OnlySwitchesChangeMode := by
  refine ⟨exec_swbit_mode, exec_swbyte_mode, exec_mode, fun w why s t hw h => ?_⟩
  rw [runWord_of_illegal w s why hw] at h
  cases h
  rfl

/-- In Byte mode `RD` never moves back, and stays within the readable data (R41). -/
theorem exec_rd_range (i : Instr) (s t : State) (hm : s.mode = .byte) (hle : s.rd ≤ s.wr) (h : exec i s = .next t) :
    s.rd ≤ t.rd ∧ t.rd ≤ s.wr := by
  cases endsAs i s with
  | raises e hend =>
    cases hend.symm.trans h
    exact ⟨le_refl _, hle⟩
  | drawsRd e hi _ hrange hend =>
    cases hend.symm.trans h
    obtain ⟨hlo, hhi⟩ := hrange hle
    exact ⟨s.drawIn_ge _ _, (s.drawIn_le _ _ hlo).trans hhi⟩
  | consumes n v out _ hn hend =>
    cases hend.symm.trans h
    show s.rd ≤ s.rd + n ∧ s.rd + n ≤ s.wr
    omega
  | entersBit _ _ hend =>
    cases hend.symm.trans h
    exact ⟨le_refl _, hle⟩
  | drawsBitcur hm' | extracts _ _ hm' | entersByte _ hm' => cases hm.symm.trans hm'

/-- In Bit mode `BITCUR` never moves back, and stays within the readable data (R41). -/
theorem exec_bitcur_range (i : Instr) (s t : State) (hm : s.mode = .bit) (hle : s.bitcur ≤ 8 * s.wr)
    (h : exec i s = .next t) : s.bitcur ≤ t.bitcur ∧ t.bitcur ≤ 8 * s.wr := by
  cases endsAs i s with
  | raises e hend =>
    cases hend.symm.trans h
    exact ⟨le_refl _, hle⟩
  | drawsBitcur _ hend =>
    cases hend.symm.trans h
    exact ⟨s.drawIn_ge _ _, s.drawIn_le _ _ hle⟩
  | extracts a v _ ha hend =>
    cases hend.symm.trans h
    show s.bitcur ≤ s.bitcur + a ∧ s.bitcur + a ≤ 8 * s.wr
    omega
  | entersByte _ _ hend =>
    cases hend.symm.trans h
    exact ⟨le_refl _, hle⟩
  | drawsRd _ _ hm' | consumes _ _ _ hm' | entersBit _ hm' => cases hm.symm.trans hm'

/-- A command that answers OK takes no free value. -/
theorem exec_draws_of_ok (i : Instr) (s t : State) (hok : Answers .ok (exec i s)) (h : exec i s = .next t) :
    t.draws = s.draws := by
  cases endsAs i s with
  | raises e hend | drawsRd e hi hm hrange hend | drawsBitcur hm hend =>
    rw [hend] at hok
    cases hok.unique (answers_raise _ _)
  | consumes n v out hm hn hend | extracts a v hm ha hend | entersBit hi hm hend | entersByte hi hm hend =>
    cases hend.symm.trans h
    rfl

/-- A raised error leaves every field but the response and the draw counter. -/
theorem raise_cursors {e : ErrorKind} {s t : State} (h : raise e s = .next t) : t.rd = s.rd ∧ t.bitcur = s.bitcur := by
  cases h
  exact ⟨rfl, rfl⟩

/-- The commands that do not write `RD` (R15). -/
theorem exec_rd_of_not_consuming (i : Instr) (s t : State)
    (hi : i = .swbit ∨ needsBitMode i = true ∨ i = .getlen ∨ i = .getrlen) (h : exec i s = .next t) : t.rd = s.rd := by
  cases hm : s.mode with
  | bit =>
    refine exec_rd_of_bit i s t hm ?_ h
    rintro rfl
    simp [needsBitMode] at hi
  | byte =>
    rcases hi with rfl | hi | rfl | rfl
    · cases (exec_swbit_of_byte s hm).symm.trans h; rfl
    · rw [exec_of_wrongMode i s (.inr ⟨hi, hm⟩)] at h
      exact (raise_cursors h).1
    · cases (exec_getlen_of_byte s hm).symm.trans h; rfl
    · cases (exec_getrlen_of_byte s hm).symm.trans h; rfl

/-- The commands that do not write `BITCUR` (R15). -/
theorem exec_bitcur_of_not_bitwise (i : Instr) (s t : State) (hne : i ≠ .swbit) (hi : needsBitMode i = false)
    (h : exec i s = .next t) : t.bitcur = s.bitcur := by
  cases hm : s.mode with
  | byte => exact exec_bitcur_of_byte i s t hm hne h
  | bit =>
    cases i with
    | swbit => exact absurd rfl hne
    | swbyte => cases (exec_swbyte_of_bit s hm).symm.trans h; rfl
    | getbits a => cases hi
    | _ =>
      rw [exec_of_wrongMode _ s (.inl ⟨rfl, hm⟩)] at h
      exact (raise_cursors h).2

/-- Settles O48: the host's side stays, and R15's "written by" column field by field. -/
theorem commandFrame : Obligations.CommandFrame := by
  intro i s t h
  have hside : t.hostSide = s.hostSide := (h ▸ exec_endsWith s i).hostSide_eq
  obtain ⟨hwr, hcap, hbyte, -⟩ := State.reads_of_hostSide hside
  exact ⟨congrArg HostSide.inputs hside, hbyte, hwr, hcap, fun hi => exec_rd_of_not_consuming i s t hi h,
    fun ⟨hne, hi⟩ => exec_bitcur_of_not_bitwise i s t hne hi h, fun ⟨hbit, hbyte⟩ => exec_mode i s t hbit hbyte h,
    fun hok => exec_draws_of_ok i s t hok h⟩

/-- Settles O52: the cursor of the mode moves on within the readable data, and a switch hands it over rounded up. -/
theorem cursorsMoveForward : Obligations.CursorsMoveForward := by
  intro i s t hinv h
  have hwr : t.wr = s.wr := congrArg HostSide.wr (h ▸ exec_endsWith s i).hostSide_eq
  have hrd := hinv.extents.1
  have hbit := hinv.bitcur_le
  rw [hwr]
  refine ⟨fun hm => exec_rd_range i s t hm hrd h, fun hm => exec_bitcur_range i s t hm hbit h, ?_, ?_⟩
  · rintro hm rfl
    cases (exec_swbit_of_byte s hm).symm.trans h
    show 8 * s.rd ≤ s.rd * 8 ∧ s.rd * 8 ≤ 8 * s.wr
    omega
  · rintro hm rfl
    cases (exec_swbyte_of_bit s hm).symm.trans h
    show s.bitcur ≤ 8 * ((s.bitcur + 7) / 8) ∧ (s.bitcur + 7) / 8 ≤ s.wr
    omega

/-- The invariant is kept by whatever leaves the host's side and keeps the cursors in the readable data. -/
theorem State.Inv.of_hostSide {s t : State} (hinv : s.Inv) (hside : t.hostSide = s.hostSide) (hrd : t.rd ≤ s.wr)
    (hle : t.bitcur ≤ 8 * s.wr) (hge : t.mode = .bit → 8 * t.rd ≤ t.bitcur) : t.Inv := by
  have hmem : t.mem = s.mem := congrArg HostSide.mem hside
  have hwr : t.wr = s.wr := congrArg HostSide.wr hside
  have hcap : t.cap = s.cap := congrArg HostSide.cap hside
  obtain ⟨-, hextent, hwidth⟩ := hinv.extents
  exact ⟨hmem ▸ hinv.mem_wf, ⟨hwr ▸ hrd, by rwa [hwr, hcap], by rwa [hcap]⟩, hwr ▸ hle, hge⟩

/-- Every command keeps the invariant, whether it succeeds or fails (R25). -/
theorem State.Inv.exec {s : State} (hinv : s.Inv) (i : Instr) {t : State} (h : exec i s = .next t) : t.Inv := by
  have hrd := hinv.extents.1
  have hbit := hinv.bitcur_le
  cases endsAs i s with
  | raises e hend =>
    cases hend.symm.trans h
    exact hinv.of_hostSide rfl hrd hbit hinv.bitcur_ge
  | drawsRd e hi hm hrange hend =>
    cases hend.symm.trans h
    obtain ⟨hlo, hhi⟩ := hrange hrd
    exact hinv.of_hostSide rfl ((s.drawIn_le _ _ hlo).trans hhi) hbit fun hb => by cases hm.symm.trans hb
  | drawsBitcur hm hend =>
    cases hend.symm.trans h
    exact hinv.of_hostSide rfl hrd (s.drawIn_le _ _ hbit) fun _ => (hinv.bitcur_ge hm).trans (s.drawIn_ge _ _)
  | consumes n v out hm hn hend =>
    cases hend.symm.trans h
    exact hinv.of_hostSide rfl (show s.rd + n ≤ s.wr by omega) hbit fun hb => by cases hm.symm.trans hb
  | extracts a v hm ha hend =>
    cases hend.symm.trans h
    exact hinv.of_hostSide rfl hrd (show s.bitcur + a ≤ 8 * s.wr by omega)
      fun _ => (hinv.bitcur_ge hm).trans (Nat.le_add_right _ _)
  | entersBit _ _ hend =>
    cases hend.symm.trans h
    exact hinv.of_hostSide rfl hrd (show s.rd * 8 ≤ 8 * s.wr by omega) fun _ => (Nat.mul_comm 8 s.rd).le
  | entersByte _ _ hend =>
    cases hend.symm.trans h
    exact hinv.of_hostSide rfl (show (s.bitcur + 7) / 8 ≤ s.wr by omega) hbit fun hb => by cases hb

/-- A reset keeps what the invariant says of the buffer, and takes `BITCUR` to 0 in Byte mode. -/
theorem State.Inv.resetUnit {s t : State} (hmem : s.mem.wf) (hcap : s.cap < 2 ^ Config.addrWidth)
    (h : resetUnit s = .next t) : t.Inv := by
  obtain ⟨hrd, hwr, rfl⟩ := resetUnit_next s t h
  exact ⟨hmem, ⟨hrd, hwr, hcap⟩, Nat.zero_le _, fun hm => by cases hm⟩

/-- A reset inside a command keeps the invariant: `RD` is left in the readable data (R117). -/
theorem State.Inv.abandonWord {s t : State} (hinv : s.Inv) (w : CmdWord) (h : abandonWord w s = .next t) : t.Inv := by
  obtain ⟨-, hwr, hcap⟩ := hinv.extents
  rw [Machine.abandonWord] at h
  cases hw : decode w with
  | illegal why =>
    rw [hw] at h
    exact State.Inv.resetUnit hinv.mem_wf hcap h
  | command i =>
    rw [hw] at h
    obtain ⟨-, hrd, -, -, d, ht⟩ := abandonCommand_next i s t h
    rw [ht]
    exact ⟨hinv.mem_wf, ⟨hrd, hwr, hcap⟩, Nat.zero_le _, fun hm => by cases hm⟩

/-- Every word keeps the invariant (R25, R56). -/
theorem State.Inv.runWord {s t : State} (hinv : s.Inv) (w : CmdWord) (h : runWord w s = .next t) : t.Inv := by
  cases hw : decode w with
  | command i =>
    rw [Machine.runWord, hw] at h
    exact hinv.exec i h
  | illegal why =>
    rw [runWord_of_illegal w s why hw] at h
    cases h
    exact hinv.of_hostSide rfl hinv.extents.1 hinv.bitcur_le hinv.bitcur_ge

/-- A binding establishes the invariant, whatever the state was (R118). -/
theorem State.Inv.bindBuffer {s t : State} (b : BufferImage) (h : bindBuffer b s = .next t) : t.Inv := by
  obtain ⟨hrd, hwr, hcap, rfl⟩ := bindBuffer_next b s t h
  exact ⟨Memory.place_wf 0 b.bytes, ⟨hrd, hwr, hcap⟩, Nat.zero_le _, fun hm => by cases hm⟩

/-- Settles O53: the invariant does not speak of the inputs, and each kind of input keeps it. -/
theorem stepKeepsTheInvariant : Obligations.StepKeepsTheInvariant := by
  intro s t hinv h
  obtain ⟨-, -, hcap⟩ := hinv.extents
  cases hinputs : s.inputs with
  | nil =>
    rw [step, hinputs] at h
    cases h
    exact hinv
  | cons a rest =>
    rw [step_of_inputs_cons s a rest hinputs] at h
    have hinv' : (s.setInputs rest).Inv := ⟨hinv.mem_wf, hinv.extents, hinv.bitcur_le, hinv.bitcur_ge⟩
    cases a with
    | cmd w => exact hinv'.runWord w h
    | rst => exact State.Inv.resetUnit hinv'.mem_wf hcap h
    | cmdRst w => exact hinv'.abandonWord w h
    | bind b => exact State.Inv.bindBuffer b h

/-- Settles O54: an empty buffer, in Byte mode. -/
theorem resetMeetsTheInvariant : Obligations.ResetMeetsTheInvariant :=
  ⟨⟨List.Pairwise.nil, fun _ hc => by cases hc⟩, ⟨le_refl 0, le_refl 0, Nat.two_pow_pos _⟩, le_refl 0,
    fun hm => by cases hm⟩

/-- Settles O55: everything is bounded by `CAP`, and `BITCUR` by eight times it. -/
theorem invariantBoundsTheWidths : Obligations.InvariantBoundsTheWidths := by
  intro s hinv
  obtain ⟨hrd, hwr, hcap⟩ := hinv.extents
  have hbit := hinv.bitcur_le
  refine ⟨by omega, by omega, hcap, ?_⟩
  rw [Nat.pow_add]
  omega

end Sys2Proof.Machine
end

section
/-! What a command does not read (R14, R23, R41, R42): the last response, the host's further actions, and every byte
below the authoritative cursor's or at or beyond `WR`. Two states that differ in these alone are run side by side: every
command reads the same bytes in both and ends alike. -/

namespace Sys2Proof.Machine

/-- The state with other contents, other inputs and another last response. -/
def State.setUnread (m : Memory) (l : List Input) (r : Option Response) (s : State) : State :=
  { s with mem := m, inputs := l, rsp := r }

/-- What stays of such a change in the next state: the contents and the inputs, but not the response. -/
def State.setMemInputs (m : Memory) (l : List Input) (s : State) : State := { s with mem := m, inputs := l }

@[simp] theorem State.setUnread_rd (m : Memory) (l : List Input) (r : Option Response) (s : State) :
    (s.setUnread m l r).rd = s.rd := rfl
@[simp] theorem State.setUnread_bitcur (m : Memory) (l : List Input) (r : Option Response) (s : State) :
    (s.setUnread m l r).bitcur = s.bitcur := rfl

section Unread

variable {m : Memory} {l : List Input} {r : Option Response} {s : State}

theorem requireMode_setUnread (mode : Mode) {body body' : StepResult}
    (h : s.mode = mode → body' = mapNext (State.setMemInputs m l) body) :
    requireMode mode (s.setUnread m l r) body' = mapNext (State.setMemInputs m l) (requireMode mode s body) := by
  by_cases hm : s.mode = mode
  · rw [requireMode_of_eq mode s _ hm, requireMode_of_eq mode (s.setUnread m l r) _ hm, h hm]
  · rw [requireMode_of_ne mode s _ hm, requireMode_of_ne mode (s.setUnread m l r) _ hm]
    rfl

section Byte

variable (h : ∀ a, s.rd ≤ a → a < s.wr → m.read a = s.byteAt a)
include h

theorem streamBytes_setUnread (n : Nat) (hn : n = 0 ∨ s.rd + n ≤ s.wr) :
    (s.setUnread m l r).streamBytes n = s.streamBytes n := by
  refine List.map_congr_left fun k hk => h (s.rd + k) (Nat.le_add_right _ _) ?_
  have hlt := List.mem_range.1 hk
  omega

theorem consumeN_setUnread (n : Nat) :
    (s.setUnread m l r).consumeN n = (s.consumeN n).map (Prod.map id (State.setUnread m l r)) := by
  obtain ⟨hc, hn⟩ | ⟨hc, hpos, hgt⟩ := s.consumeN_cases n
  · obtain ⟨hc', -⟩ | ⟨-, hpos, hgt⟩ := (s.setUnread m l r).consumeN_cases n
    · rw [hc, hc']
      exact congrArg (fun bs => some (bs, _)) (streamBytes_setUnread h n hn)
    · change s.wr < s.rd + n at hgt
      omega
  · rw [hc, State.consumeN_of_gt n (s.setUnread m l r) hpos hgt]
    rfl

theorem fillArray_setUnread (n : Nat) (slots : List Byte → List Byte) :
    fillArray n slots (s.setUnread m l r) = mapNext (State.setMemInputs m l) (fillArray n slots s) := by
  rw [fillArray, fillArray, consumeN_setUnread h]
  cases s.consumeN n <;> rfl

theorem fillTransformed_setUnread (xf : XfField) (n : Nat) (layout : List Byte → List Byte) :
    fillTransformed xf n layout (s.setUnread m l r) =
      mapNext (State.setMemInputs m l) (fillTransformed xf n layout s) := by
  cases xf with
  | known x => exact fillArray_setUnread h n _
  | unrecognised c =>
    rw [fillTransformed, fillTransformed]
    split <;> rfl

theorem fillByTransformation_setUnread (xf : XfField) (n : Nat) (layout : List Byte → List Byte) :
    (if xf = .known .none then fillArray n List.reverse (s.setUnread m l r)
      else fillTransformed xf n layout (s.setUnread m l r)) =
    mapNext (State.setMemInputs m l)
      (if xf = .known .none then fillArray n List.reverse s else fillTransformed xf n layout s) := by
  split
  · exact fillArray_setUnread h n _
  · exact fillTransformed_setUnread h xf n layout

theorem readRaw_setUnread (ty : TypeField) (ord : OrdField) (xf : XfField) (result : Nat → Nat → Int) :
    readRaw ty ord xf result (s.setUnread m l r) = mapNext (State.setMemInputs m l) (readRaw ty ord xf result s) := by
  rw [readRaw, readRaw]
  cases rawPlan ty ord xf with
  | reject | rejectMidField w => rfl
  | legal t o x =>
    simp only [consumeN_setUnread h]
    cases s.consumeN (typeWidth t) <;> rfl

theorem exec_getsmart_setUnread (hm : s.mode = .byte) :
    exec .getsmart (s.setUnread m l r) = mapNext (State.setMemInputs m l) (exec .getsmart s) := by
  rcases Nat.lt_or_ge s.rd s.wr with hlt | hge
  · have hfirst : (s.setUnread m l r).byteAt s.rd = s.byteAt s.rd := h _ (le_refl _) hlt
    rcases Nat.lt_or_ge (s.byteAt s.rd).toNat 128 with hp | hp
    · rw [exec_getsmart_oneByte s hm hlt hp,
        exec_getsmart_oneByte (s.setUnread m l r) hm hlt (hfirst.symm ▸ hp)]
      rw [State.setUnread_rd, hfirst]
      rfl
    · rcases Nat.lt_or_ge (s.rd + 1) s.wr with hlt₂ | hge₂
      · have hsecond : (s.setUnread m l r).byteAt (s.rd + 1) = s.byteAt (s.rd + 1) := h _ (Nat.le_succ _) hlt₂
        rw [exec_getsmart_twoBytes s hm hlt₂ hp,
          exec_getsmart_twoBytes (s.setUnread m l r) hm hlt₂ (hfirst.symm ▸ hp)]
        rw [State.setUnread_rd, hfirst, hsecond]
        rfl
      · have heq : s.rd + 1 = s.wr := by omega
        rw [exec_getsmart_of_ge_128 s hm hlt hp, smartLong_of_eq s heq,
          exec_getsmart_of_ge_128 (s.setUnread m l r) hm hlt (hfirst.symm ▸ hp),
          smartLong_of_eq (s.setUnread m l r) heq]
        rfl
  · rw [exec_getsmart_of_ge s hm hge, exec_getsmart_of_ge (s.setUnread m l r) hm hge]
    rfl

theorem exec_getstr_setUnread (hm : s.mode = .byte) :
    exec .getstr (s.setUnread m l r) = mapNext (State.setMemInputs m l) (exec .getstr s) := by
  obtain ⟨len, hlt, hzero, hbefore, -⟩ | ⟨hnz, -⟩ := s.consumeText_cases
  · have htext : (s.setUnread m l r).TextLength len :=
      ⟨hlt, (h _ (Nat.le_add_right _ _) hlt).trans hzero, fun k hk => by
        refine ne_of_eq_of_ne (h (s.rd + k) (Nat.le_add_right _ _) ?_) (hbefore k hk)
        omega⟩
    rw [exec_getstr_of_textLength s len hm ⟨hlt, hzero, hbefore⟩,
      exec_getstr_of_textLength (s.setUnread m l r) len hm htext, streamBytes_setUnread h len (.inr hlt.le)]
    rfl
  · have hnz' (a : Nat) (hrd : s.rd ≤ a) (hwr : a < s.wr) : (s.setUnread m l r).byteAt a ≠ 0 :=
      ne_of_eq_of_ne (h a hrd hwr) (hnz a hrd hwr)
    rw [exec_getstr_of_no_zero s hm hnz, exec_getstr_of_no_zero (s.setUnread m l r) hm hnz']
    rfl

end Byte

section Bit

variable (h : ∀ a, s.bitcur / 8 ≤ a → a < s.wr → m.read a = s.byteAt a)
include h

theorem extractBits_setUnread (a : Nat) (ha : 1 ≤ a) :
    extractBits a (s.setUnread m l r) = mapNext (State.setMemInputs m l) (extractBits a s) := by
  have hpeeks : (s.setUnread m l r).peekN (spanBytes s.bitcur a) (firstByte s.bitcur) =
      s.peekN (spanBytes s.bitcur a) (firstByte s.bitcur) := by
    have hfirst : firstByte s.bitcur = s.bitcur / 8 := Nat.shiftRight_eq_div_pow _ 3
    have hspan := spanBytes_pos s.bitcur a ha
    rcases Nat.lt_or_ge s.wr (firstByte s.bitcur + spanBytes s.bitcur a) with hgt | hle
    · rw [State.peekN_of_gt _ _ s hspan hgt, State.peekN_of_gt _ _ (s.setUnread m l r) hspan hgt]
    · rw [State.peekN_of_le _ _ s hle, State.peekN_of_le _ _ (s.setUnread m l r) hle]
      refine congrArg some (List.map_congr_left fun k hk => h _ (by omega) ?_)
      have hlt := List.mem_range.1 hk
      omega
  rw [extractBits, extractBits, State.setUnread_bitcur, hpeeks]
  cases s.peekN (spanBytes s.bitcur a) (firstByte s.bitcur) <;> rfl

theorem execGetbits_setUnread (a : BitVec 16) :
    execGetbits a (s.setUnread m l r) = mapNext (State.setMemInputs m l) (execGetbits a s) := by
  refine requireMode_setUnread .bit fun _ => ?_
  split
  · rfl
  · exact extractBits_setUnread h a.toNat (by omega)

end Bit

end Unread

/-- A command ends alike in two states that differ only in what no command reads. -/
theorem exec_setUnread (i : Instr) (s : State) (m : Memory) (l : List Input) (r : Option Response)
    (h : ∀ a, (if s.mode = .byte then s.rd else s.bitcur / 8) ≤ a → a < s.wr → m.read a = s.byteAt a) :
    exec i (s.setUnread m l r) = mapNext (State.setMemInputs m l) (exec i s) := by
  cases hm : s.mode with
  | byte =>
    rw [if_pos hm] at h
    cases i with
    | swbit => rw [exec_swbit_of_byte s hm, exec_swbit_of_byte (s.setUnread m l r) hm]; rfl
    | swbyte => rw [exec_swbyte_of_byte s hm, exec_swbyte_of_byte (s.setUnread m l r) hm]; rfl
    | getbits a => exact requireMode_setUnread .bit fun hb => by cases hm.symm.trans hb
    | getu t o x => exact requireMode_setUnread .byte fun _ => readRaw_setUnread h t o x _
    | gets t o x => exact requireMode_setUnread .byte fun _ => readRaw_setUnread h t o x _
    | getsmart => exact exec_getsmart_setUnread h hm
    | getbytes n => exact requireMode_setUnread .byte fun _ => fillArray_setUnread h _ _
    | getbytesr n => exact requireMode_setUnread .byte fun _ => fillArray_setUnread h _ _
    | getbytesx x n => exact requireMode_setUnread .byte fun _ => fillByTransformation_setUnread h x _ _
    | getbytesrx x n => exact requireMode_setUnread .byte fun _ => fillByTransformation_setUnread h x _ _
    | getstr => exact exec_getstr_setUnread h hm
    | getlen | getrlen => exact requireMode_setUnread .byte fun _ => rfl
  | bit =>
    rw [if_neg (by simp [hm])] at h
    cases i with
    | swbit => rw [exec_swbit_of_bit s hm, exec_swbit_of_bit (s.setUnread m l r) hm]; rfl
    | swbyte => rw [exec_swbyte_of_bit s hm, exec_swbyte_of_bit (s.setUnread m l r) hm]; rfl
    | getbits a => exact execGetbits_setUnread h a
    | _ => exact requireMode_setUnread .byte fun hb => by cases hm.symm.trans hb

/-- The next state of a command holds the contents and the inputs it was given, so setting them again changes
nothing. -/
theorem mapNext_setMemInputs_exec (i : Instr) (s : State) :
    mapNext (State.setMemInputs s.mem s.inputs) (exec i s) = exec i s := by
  obtain ⟨t, ht, hside⟩ := exec_endsWith s i
  have hmem : t.mem = s.mem := congrArg HostSide.mem hside
  have hinputs : t.inputs = s.inputs := congrArg HostSide.inputs hside
  rw [ht, mapNext_next, ← hmem, ← hinputs]
  rfl

/-- Setting the contents and the inputs, one of them as it was, is setting the other. -/
theorem mapNext_setMemInputs_congr (i : Instr) (s : State) {m : Memory} {l : List Input} {f : State → State}
    (h : ∀ t : State, t.mem = s.mem → t.inputs = s.inputs → t.setMemInputs m l = f t) :
    mapNext (State.setMemInputs m l) (exec i s) = mapNext f (exec i s) := by
  obtain ⟨t, ht, hside⟩ := exec_endsWith s i
  rw [ht, mapNext_next, mapNext_next, h t (congrArg HostSide.mem hside) (congrArg HostSide.inputs hside)]

/-- Settles O51: bytes no command reads are a part of what it leaves unread. -/
theorem onlyReadableBytesMatter : Obligations.OnlyReadableBytesMatter := by
  intro i s m h
  refine (exec_setUnread i s m s.inputs s.rsp h).trans (mapNext_setMemInputs_congr i s fun t _ hinputs => ?_)
  rw [State.setMemInputs, ← hinputs]

/-- Settles O50: so are the last response and the host's further actions. -/
theorem earlierResponsesAreNeverRead : Obligations.EarlierResponsesAreNeverRead := by
  refine fun i s => ⟨fun r => ?_, fun l => ?_⟩
  · exact (exec_setUnread i s s.mem s.inputs r fun _ _ _ => rfl).trans (mapNext_setMemInputs_exec i s)
  · refine (exec_setUnread i s s.mem l s.rsp fun _ _ _ => rfl).trans (mapNext_setMemInputs_congr i s fun t hmem _ => ?_)
    rw [State.setMemInputs, ← hmem]

end Sys2Proof.Machine
end
